-- ==== Sys2Proof/Word.lean ====
section
/-! DEFINITION. The word types: everything SPA-CORE moves is a byte (R45) or a byte string (R10). -/

namespace Sys2Proof

/-- A `u8` (R9). -/
abbrev Byte := BitVec 8

/-- Four bits, the value of one hex digit (R101, R102). -/
abbrev Nibble := BitVec 4

/-- A byte string: index 0 is the head (R10). Text is a byte string of ASCII codes (R11). -/
abbrev Bytes := List Byte

end Sys2Proof
end

