-- ==== Sys2Proof/Config.lean ====
section
/-! DEFINITION. The implementation parameters of R8: the constants, and the two a build may choose. -/

namespace Sys2Proof

/-- `SENTINEL`, the frame header byte (R8). -/
def sentinel : Byte := 0x7F

/-- `MIN_FRAME`: header, length byte and a 2-byte trailer (R8). -/
def minFrame : Nat := 4

/-- `MAX_FRAME` (R8). -/
def maxFrame : Nat := 259

/-- `MAX_OPERAND_LEN`: every length field is a u32 (R8, R62). -/
def maxOperandLen : Nat := 4294967295

/-- The default separator of HEX.ENC, one space (R8, R69). -/
def defaultSeparator : Bytes := [0x20]

/-- What is fixed when the block is built and never written afterwards (R8, R26). R8 has a model take the open
parameters as arguments: an instance carries its own `Config`, and statements hold for every one.
`ENGINE_VARIANT` has one legal value, CRC16_BE (R203), so it is no field. -/
structure Config where
  /-- `BACKLOG_MAX`: `none` is the reference value `unbounded` (R8, R170). -/
  backlogMax : Option Nat
  /-- `HAS_CRC16_LE`: whether the codes 0x22 and 0x23 are operations (R8, R65). -/
  hasCrc16Le : Bool
  deriving DecidableEq, Repr

/-- The values R8 gives: `BACKLOG_MAX = unbounded`, `HAS_CRC16_LE = true`. -/
def Config.reference : Config := { backlogMax := none, hasCrc16Le := true }

/-- R264: a finite `BACKLOG_MAX` is at least 259, so that one maximal frame fits. -/
def Config.legal (c : Config) : Bool :=
  match c.backlogMax with
  | none => true
  | some m => decide (maxFrame ≤ m)

end Sys2Proof
end

