-- ==== Sys2Proof/Syntax.lean ====
section
/-! DEFINITION. The operations of SPA-CORE (R64), one constructor per row of the opcode table. -/

namespace Sys2Proof

/-- A command as the units see it: the operation and its operands, each a byte string taken verbatim (R60, R62). -/
inductive Instr where
  /-- 0x10 `CRC8.CMP A` (R132). -/
  | crc8Cmp (a : Bytes)
  /-- 0x11 `CRC8.VFY A`: documented, not implemented, reserved (R134). -/
  | crc8Vfy (a : Bytes)
  /-- 0x20 `CRC16.CMP A` (R140). -/
  | crc16Cmp (a : Bytes)
  /-- 0x21 `CRC16.VFY F` (R141). -/
  | crc16Vfy (f : Bytes)
  /-- 0x22 `CRC16L.CMP A` (R143). -/
  | crc16lCmp (a : Bytes)
  /-- 0x23 `CRC16L.VFY F` (R144). -/
  | crc16lVfy (f : Bytes)
  /-- 0x30 `HEX.ENC A, B`, the only operation of format C2 (R100). -/
  | hexEnc (a b : Bytes)
  /-- 0x31 `HEX.DEC A` (R104). -/
  | hexDec (a : Bytes)
  /-- 0x32 `HEX.ISHEX A` (R103). -/
  | hexIshex (a : Bytes)
  /-- 0x40 `FX.EXT A` (R174). -/
  | fxExt (a : Bytes)
  /-- 0x50 `PE.PROC A` (R200). -/
  | peProc (a : Bytes)
  /-- Any other code: a reserved `OPC` with its format C1 operand (R61, R65). -/
  | reserved (opc : Byte) (a : Bytes)
  deriving DecidableEq, Repr

/-- R69: `HEX.ENC bytes` with no second operand means the separator `" "`. -/
def Instr.hexEncDefault (a : Bytes) : Instr := .hexEnc a defaultSeparator

end Sys2Proof
end

