-- ==== Sys2Proof/WellFormed.lean ====
section
/-! DEFINITION. Which terms of `Instr` some command stands for: operands that fit their length field (R62), and
`reserved` only with a code that R65 reserves and that has no row of its own. -/

namespace Sys2Proof

/-- An operand is at most `MAX_OPERAND_LEN` bytes long (R62). -/
def operandFits (a : Bytes) : Bool := decide (a.length ≤ maxOperandLen)

/-- The reserved codes, range by range (R65). -/
def reservedCode (opc : Byte) : Bool :=
  let n := opc.toNat
  decide (n ≤ 0x0F) || decide (0x11 ≤ n ∧ n ≤ 0x1F) || decide (0x24 ≤ n ∧ n ≤ 0x2F) ||
    decide (0x33 ≤ n ∧ n ≤ 0x3F) || decide (0x41 ≤ n ∧ n ≤ 0x4F) || decide (0x51 ≤ n)

/-- The well-formed commands. 0x11 is reserved too, but has the row and the constructor `crc8Vfy`. -/
def wellFormed : Instr → Bool
  | .crc8Cmp a => operandFits a
  | .crc8Vfy a => operandFits a
  | .crc16Cmp a => operandFits a
  | .crc16Vfy f => operandFits f
  | .crc16lCmp a => operandFits a
  | .crc16lVfy f => operandFits f
  | .hexEnc a b => operandFits a && operandFits b
  | .hexDec a => operandFits a
  | .hexIshex a => operandFits a
  | .fxExt a => operandFits a
  | .peProc a => operandFits a
  | .reserved opc a => operandFits a && reservedCode opc && opc != 0x11

/-- `wellFormed` as a proposition. -/
abbrev WellFormed (i : Instr) : Prop := wellFormed i = true

end Sys2Proof
end

