-- ==== Sys2Proof/Decode.lean ====
section
/-! DEFINITION. The command format (R60, R61), the operation map (R64), and the encoder of the same format. -/

namespace Sys2Proof

/-- A length as a u32, big-endian (R43, R60). -/
def u32be (n : Nat) : Bytes :=
  [BitVec.ofNat 8 (n / 0x1000000), BitVec.ofNat 8 (n / 0x10000), BitVec.ofNat 8 (n / 0x100), BitVec.ofNat 8 n]

/-- The value of four bytes as a u32, big-endian: `C[1]<<24 | C[2]<<16 | C[3]<<8 | C[4]` (R60). -/
def u32Value (b0 b1 b2 b3 : Byte) : Nat :=
  0x100 * (0x100 * (0x100 * b0.toNat + b1.toNat) + b2.toNat) + b3.toNat

/-- Why bytes are no command (R63). -/
inductive DecodeError where
  /-- Shorter than the length the header announces, the header itself cut off included. -/
  | truncatedCommand
  deriving DecidableEq, Repr

/-- Read one operand: its u32 length, then that many bytes, verbatim (R62); none if the bytes run out. -/
def takeOperand : Bytes → Option (Bytes × Bytes)
  | b0 :: b1 :: b2 :: b3 :: rest =>
    let n := u32Value b0 b1 b2 b3
    if n ≤ rest.length then some (rest.take n, rest.drop n) else none
  | _ => none

/-- The operation map for the format C1 codes (R64): every code not listed is reserved (R65).
0x30 is format C2 and never comes here. -/
def ofOpcode (opc : Byte) (a : Bytes) : Instr :=
  match opc.toNat with
  | 0x10 => .crc8Cmp a
  | 0x11 => .crc8Vfy a
  | 0x20 => .crc16Cmp a
  | 0x21 => .crc16Vfy a
  | 0x22 => .crc16lCmp a
  | 0x23 => .crc16lVfy a
  | 0x31 => .hexDec a
  | 0x32 => .hexIshex a
  | 0x40 => .fxExt a
  | 0x50 => .peProc a
  | _ => .reserved opc a

/-- R61: read `OPC`, then operand A; for 0x30 operand B as well. Answers the command at the head of the bytes and the
bytes after it, or why there is none (R63). -/
def decode : Bytes → Except DecodeError (Instr × Bytes)
  | [] => .error .truncatedCommand
  | opc :: rest =>
    match takeOperand rest with
    | none => .error .truncatedCommand
    | some (a, rest) =>
      if opc = 0x30 then
        match takeOperand rest with
        | none => .error .truncatedCommand
        | some (b, rest) => .ok (.hexEnc a b, rest)
      else .ok (ofOpcode opc a, rest)

/-- The `OPC` byte of an operation (R64). -/
def opcodeOf : Instr → Byte
  | .crc8Cmp _ => 0x10
  | .crc8Vfy _ => 0x11
  | .crc16Cmp _ => 0x20
  | .crc16Vfy _ => 0x21
  | .crc16lCmp _ => 0x22
  | .crc16lVfy _ => 0x23
  | .hexEnc _ _ => 0x30
  | .hexDec _ => 0x31
  | .hexIshex _ => 0x32
  | .fxExt _ => 0x40
  | .peProc _ => 0x50
  | .reserved opc _ => opc

/-- One operand on the wire: its length, then its bytes (R60). -/
def putOperand (a : Bytes) : Bytes := u32be a.length ++ a

/-- The bytes of a command: format C2 for HEX.ENC, C1 for every other (R60). -/
def encode : Instr → Bytes
  | .hexEnc a b => 0x30 :: (putOperand a ++ putOperand b)
  | .crc8Cmp a => 0x10 :: putOperand a
  | .crc8Vfy a => 0x11 :: putOperand a
  | .crc16Cmp a => 0x20 :: putOperand a
  | .crc16Vfy f => 0x21 :: putOperand f
  | .crc16lCmp a => 0x22 :: putOperand a
  | .crc16lVfy f => 0x23 :: putOperand f
  | .hexDec a => 0x31 :: putOperand a
  | .hexIshex a => 0x32 :: putOperand a
  | .fxExt a => 0x40 :: putOperand a
  | .peProc a => 0x50 :: putOperand a
  | .reserved opc a => opc :: putOperand a

/-- Byte `k` of a table word: bit 0 is the least significant bit of the first byte. -/
def tableByte (w k : Nat) : Byte := BitVec.ofNat 8 (w / 2 ^ (8 * k))

/-- Byte `k` of bytes that go on with zeros for ever. -/
def zeroExtended (bs : Bytes) (k : Nat) : Byte := bs.getD k 0

/-- The u32 at offset `k` of bytes that go on with zeros for ever. -/
def zeroExtendedU32 (bs : Bytes) (k : Nat) : Nat :=
  u32Value (zeroExtended bs k) (zeroExtended bs (k + 1)) (zeroExtended bs (k + 2)) (zeroExtended bs (k + 3))

/-- The length R61 gives the command that opens bytes going on with zeros for ever. -/
def zeroExtendedLength (bs : Bytes) : Nat :=
  let la := zeroExtendedU32 bs 1
  if zeroExtended bs 0 = 0x30 then 9 + la + zeroExtendedU32 bs (5 + la) else 5 + la

/-- The whole command whose first `nbits` bits are the table word `w` and whose every later bit is zero. -/
def tableCommand (nbits w : Nat) : Bytes :=
  let bs := (List.range (nbits / 8)).map (tableByte w)
  (List.range (zeroExtendedLength bs)).map (zeroExtended bs)

/-- What the decoder reads from a table word laid out as the bytes of a command. -/
def decodeTableWord (nbits w : Nat) : Option Instr :=
  match decode (tableCommand nbits w) with
  | .ok (i, _) => some i
  | .error _ => none

end Sys2Proof
end

