-- ==== Sys2Proof/Machine/State.lean ====
section
/-! DEFINITION. The state of one SPA-CORE instance: `BL` and `T8` (R20, "exactly the following"), the parameters its
build fixed (R8), and the host's side of the command interface, which makes a step a function of the state alone. -/

namespace Sys2Proof.Machine

/-- What the host does to an instance (R269): it sends bytes, or it resets the instance between commands (R251). -/
inductive HostAction where
  /-- Send a byte string: a command (R60), or several one after another, each issued when the one before has been
  answered (R227). -/
  | send (bytes : Bytes)
  /-- Assert reset (R250). -/
  | reset
  deriving DecidableEq, Repr

/-- The status codes of R220. -/
inductive Status where
  | ok | invalidFormat | illegalOperation | shortInput | backlogOverflow | resultTooLong
  deriving DecidableEq, Repr

/-- The state of one instance, plain data. -/
structure State where
  /-- `BL`, the Byte Backlog: head first (R21). -/
  bl : Bytes
  /-- `T8`, the CRC-8 lookup table, a ROM (R23); no operation writes it. -/
  t8 : Vector Byte 256
  /-- The parameters fixed when this instance was built (R8, R26); nothing writes them. -/
  cfg : Config
  /-- MODEL'S OWN (assumption 1): what the host has still to do, in issue order (R47, R49). -/
  host : List HostAction
  /-- MODEL'S OWN (assumption 1): the responses sent so far, oldest first, each one byte string (R66, R270). -/
  out : List Bytes
  deriving DecidableEq, Repr

/-- Why the machine stops with a fault. -/
inductive Fault where
  /-- Raised by `step` when the host has nothing left to issue: every step is an operation the host issues (R15), so
  there is none (R270). Safe: the machine stops where the hardware only waits (assumption 3). -/
  | awaitingCommand
  deriving DecidableEq, Repr

/-- Why the machine performs no step. -/
inductive Refusal where
  /-- Raised by `exec` for an instruction with no meaning yet; no arm does so now. Safe. -/
  | notModelled (mnemonic : String)
  /-- Raised by `step` for sent bytes shorter than the length their header announces: R63 has a model's decoder refuse
  them by this name. Safe: nothing is claimed of such a host. -/
  | truncatedCommand
  deriving DecidableEq, Repr

/-- Right after reset (R250): `BL = []`, `T8` holds R24's contents. The build is the reference one (R8), the host has
issued nothing and nothing has been answered (assumptions 1 and 2). -/
def State.reset : State :=
  { bl := [], t8 := crc8Rom, cfg := Config.reference, host := [], out := [] }

end Sys2Proof.Machine
end

