-- ==== Sys2Proof/Machine/Flags.lean ====
section
/-! DEFINITION. SPA-CORE has no persistent flags (R27): its status code and its Validity Flag are bytes of a response. -/

namespace Sys2Proof.Machine

/-- The `STATUS` byte of each status (R220). -/
def statusCode : Status → Byte
  | .ok => 0x00
  | .invalidFormat => 0x01
  | .illegalOperation => 0x02
  | .shortInput => 0x03
  | .backlogOverflow => 0x04
  | .resultTooLong => 0x05

/-- A Boolean result, the Validity Flag among them, as a response byte: 0x01 or 0x00 (R66). -/
def validityByte (v : Bool) : Byte := if v then 0x01 else 0x00

end Sys2Proof.Machine
end

