-- ==== Sys2Proof/Machine/Ops.lean ====
section
/-! DEFINITION. The named operations over the state: the five storage primitives of R41, the read of `T8`, how an
operation ends (R66, R221), reset (R250), and taking the host's next action. -/

namespace Sys2Proof.Machine

/-- `Append(BL, s)` (R41). -/
def blAppend (bl s : Bytes) : Bytes := bl ++ s

/-- `Head(BL)`, defined when `|BL| >= 1` (R41). -/
def blHead (bl : Bytes) : Option Byte := bl[0]?

/-- `Peek(BL, i)`, defined when `|BL| > i`; consumes nothing (R41). -/
def blPeek (bl : Bytes) (i : Nat) : Option Byte := bl[i]?

/-- `Take(BL, n)`: the first n bytes and the backlog without them (R41). -/
def blTake (bl : Bytes) (n : Nat) : Bytes × Bytes := (bl.take n, bl.drop n)

/-- `Drop1(BL)` (R41). -/
def blDrop1 (bl : Bytes) : Bytes := bl.drop 1

/-- `T8[i]` (R23). -/
def readT8 (t8 : Vector Byte 256) (i : Byte) : Byte := t8[i.toNat]'i.isLt

/-- Send one response (R66). -/
def State.respond (s : State) (r : Bytes) : State := { s with out := s.out ++ [r] }

/-- The backlog an operation leaves (R174). -/
def State.withBacklog (s : State) (bl : Bytes) : State := { s with bl := bl }

/-- `return`: end with status OK and the result's bytes (R12, R66). -/
def finish (result : Bytes) (s : State) : Host.Outcome State Fault Refusal :=
  .next (s.respond (statusCode .ok :: result))

/-- `raise Status(st)`: the one status byte is the whole response, and no state is written (R12, R221). -/
def raise (st : Status) (s : State) : Host.Outcome State Fault Refusal :=
  .next (s.respond [statusCode st])

/-- The reset action (R250): `BL` becomes empty; `T8` and the build are constants. -/
def State.applyReset (s : State) : State := { s with bl := [] }

/-- What the host still has to do once a command is taken from the bytes it sent and `more` follow it. -/
def hostAfter (more : Bytes) (rest : List HostAction) : List HostAction :=
  match more with
  | [] => rest
  | b :: bs => .send (b :: bs) :: rest

/-- The host's next action, as a step meets it. -/
inductive Fetched where
  /-- The host has nothing to issue. -/
  | idle
  /-- A reset, and the state with that action taken. -/
  | reset (s : State)
  /-- A command, and the state with its bytes taken. -/
  | command (i : Instr) (s : State)
  /-- Sent bytes that are no command (R63). -/
  | truncated

/-- Take the host's next action (R15, R61). -/
def fetch (s : State) : Fetched :=
  match s.host with
  | [] => .idle
  | .reset :: rest => .reset { s with host := rest }
  | .send bytes :: rest =>
    match decode bytes with
    | .error .truncatedCommand => .truncated
    | .ok (i, more) => .command i { s with host := hostAfter more rest }

/-- The state in which the host issues `bytes` before anything else. -/
def State.issue (s : State) (bytes : Bytes) : State := { s with host := .send bytes :: s.host }

end Sys2Proof.Machine
end

