-- ==== Sys2Proof/Machine/Operands.lean ====
section
/-! DEFINITION. The result layouts of R66, and the text operand's character classes and lexer (R102). -/

namespace Sys2Proof.Machine

/-- A u16 most-significant byte first (R43, R66). -/
def u16be (r : BitVec 16) : Bytes := [r.extractLsb' 8 8, r.extractLsb' 0 8]

/-- A counted text or byte string: its length as a u32, then its bytes (HEX.ENC, HEX.DEC; R66). -/
def countedBytes (t : Bytes) : Bytes := u32be t.length ++ t

/-- HEX.ISHEX's result: the validity byte, then the digit count (R66). -/
def isHexResult (valid : Bool) (count : Nat) : Bytes := validityByte valid :: u32be count

/-- FX.EXT's result: the frame count, then the frames, oldest first (R66). -/
def framesResult (fs : List Bytes) : Bytes := u32be fs.length ++ fs.flatten

/-- One record of PE.PROC: the validity byte, then the frame (R66). -/
def recordBytes (r : Bool × Bytes) : Bytes := validityByte r.1 :: r.2

/-- PE.PROC's result: the record count, then the records, oldest first (R66). -/
def recordsResult (rs : List (Bool × Bytes)) : Bytes := u32be rs.length ++ (rs.map recordBytes).flatten

/-- `IsWS(c)` (R102). -/
def isWS (c : Byte) : Bool :=
  c == 0x09 || c == 0x0A || c == 0x0B || c == 0x0C || c == 0x0D || c == 0x20

/-- `HexVal(c)` where `IsHex(c)`, and none for every other byte (R102). -/
def hexVal? (c : Byte) : Option Nibble :=
  if 0x30 ≤ c.toNat ∧ c.toNat ≤ 0x39 then some (BitVec.ofNat 4 (c.toNat - 0x30))
  else if 0x41 ≤ c.toNat ∧ c.toNat ≤ 0x46 then some (BitVec.ofNat 4 (c.toNat - 0x37))
  else if 0x61 ≤ c.toNat ∧ c.toNat ≤ 0x66 then some (BitVec.ofNat 4 (c.toNat - 0x57))
  else none

/-- One optional leading `0x` or `0X` taken off (R102). -/
def stripHexMark : Bytes → Bytes
  | z :: x :: rest => if z = 0x30 ∧ (x = 0x78 ∨ x = 0x58) then rest else z :: x :: rest
  | t => t

/-- The lexer's pass over the body: the digits' values in order, and whether a bad byte stands in it (R102). -/
def lexBody : Bytes → List Nibble × Bool
  | [] => ([], false)
  | c :: rest =>
    match hexVal? c with
    | some v => (v :: (lexBody rest).1, (lexBody rest).2)
    | none => ((lexBody rest).1, if isWS c then (lexBody rest).2 else true)

/-- `Lex(text)` (R102): leading whitespace, one optional mark, then the body. -/
def lex (text : Bytes) : List Nibble × Bool := lexBody (stripHexMark (text.dropWhile isWS))

end Sys2Proof.Machine
end

