-- ==== Sys2Proof/Machine/Checksum.lean ====
section
/-! DEFINITION. The Checksum Providers: CRC-8 by its table (R131 to R134), CRC-16 in both modes (R139 to R144). -/

namespace Sys2Proof.Machine

/-- The CRC-8 of a byte string: from 0x00, each byte absorbed by one table lookup `T8[r8 ^ b]` (R131, R132). -/
def crc8 (t8 : Vector Byte 256) (a : Bytes) : Byte := a.foldl (fun r b => readT8 t8 (r ^^^ b)) 0x00

/-- CRC8.CMP (R132). -/
def execCrc8Cmp (a : Bytes) (s : State) : Host.Outcome State Fault Refusal := finish [crc8 s.t8 a] s

/-- CRC8.VFY (R134): documented, not implemented; raises IllegalOperation, whatever its operand. -/
def execCrc8Vfy (_a : Bytes) (s : State) : Host.Outcome State Fault Refusal := raise .illegalOperation s

/-- One round of the shift/XOR rule with polynomial 0x1021 (R139). -/
def crc16Round (r : BitVec 16) : BitVec 16 := if r.getLsbD 15 then (r <<< 1) ^^^ 0x1021 else r <<< 1

/-- `Crc16Byte(r16, b)` (R139): the byte XORed into the high byte, then 8 rounds. -/
def crc16Byte (r : BitVec 16) (b : Byte) : BitVec 16 :=
  Nat.repeat crc16Round 8 (r ^^^ (b.setWidth 16 <<< 8))

/-- `Crc16(A)` (R139): from 0xFFFF; the final register is used as it is. -/
def crc16 (a : Bytes) : BitVec 16 := a.foldl crc16Byte 0xFFFF

/-- The byte-swapped register of the little-endian mode (R143). -/
def byteSwap (r : BitVec 16) : BitVec 16 :=
  ((r.extractLsb' 0 8).setWidth 16 <<< 8) ||| (r.extractLsb' 8 8).setWidth 16

/-- A two-byte trailer read as `(trailer[0] << 8) | trailer[1]` (R43); none for any other length. -/
def trailerValue : Bytes → Option (BitVec 16)
  | [t0, t1] => some ((t0.setWidth 16 <<< 8) ||| t1.setWidth 16)
  | _ => none

/-- Whether the last two bytes of `f` are the value `mode` makes of the CRC-16 of all bytes before them (R130, R141,
R144). -/
def trailerMatches (mode : BitVec 16 → BitVec 16) (f : Bytes) : Bool :=
  trailerValue (f.drop (f.length - 2)) == some (mode (crc16 (f.take (f.length - 2))))

/-- The verify of both modes: ShortInput below the trailer's two bytes, else a validity byte (R141, R144). -/
def verify (mode : BitVec 16 → BitVec 16) (f : Bytes) (s : State) : Host.Outcome State Fault Refusal :=
  if f.length < 2 then raise .shortInput s else finish [validityByte (trailerMatches mode f)] s

/-- CRC16.CMP (R140). -/
def execCrc16Cmp (a : Bytes) (s : State) : Host.Outcome State Fault Refusal := finish (u16be (crc16 a)) s

/-- CRC16.VFY (R141). -/
def execCrc16Vfy (f : Bytes) (s : State) : Host.Outcome State Fault Refusal := verify id f s

/-- CRC16L.CMP (R143); with `HAS_CRC16_LE = false` its code is reserved (R65). -/
def execCrc16lCmp (a : Bytes) (s : State) : Host.Outcome State Fault Refusal :=
  if s.cfg.hasCrc16Le then finish (u16be (byteSwap (crc16 a))) s else raise .illegalOperation s

/-- CRC16L.VFY (R144); with `HAS_CRC16_LE = false` its code is reserved (R65). -/
def execCrc16lVfy (f : Bytes) (s : State) : Host.Outcome State Fault Refusal :=
  if s.cfg.hasCrc16Le then verify byteSwap f s else raise .illegalOperation s

end Sys2Proof.Machine
end

