-- ==== Sys2Proof/Machine/Extractor.lean ====
section
/-! DEFINITION. The Frame Extractor: its steps (R170 to R173) and FX.EXT (R174). -/

namespace Sys2Proof.Machine

/-- Step 2a: `while |BL| >= 1 and BL[0] != 0x7F: Drop1(BL)` (R171); each pass of the recursion drops the head. -/
def resync : Bytes → Bytes
  | [] => []
  | b :: rest => if b = sentinel then b :: rest else resync rest

/-- The total length of a frame whose length byte is `l` (R172 step 2c, R173). -/
def frameLength (l : Byte) : Nat := 4 + l.toNat

/-- Steps 2b to 2d: the length of the complete frame at the head, if there is one (R172). -/
def completeFrame? (bl : Bytes) : Option Nat :=
  if bl.length < minFrame then none
  else
    match blPeek bl 1 with
    | none => none
    | some l => if bl.length < frameLength l then none else some (frameLength l)

/-- The loop of R172, at most `fuel` passes: the frames taken, oldest first, and the backlog left. -/
def drainPasses : Nat → Bytes → List Bytes × Bytes
  | 0, bl => ([], bl)
  | fuel + 1, bl =>
    let bl := resync bl
    match completeFrame? bl with
    | none => ([], bl)
    | some n =>
      let (f, rest) := blTake bl n
      let (fs, last) := drainPasses fuel rest
      (f :: fs, last)

/-- The whole loop: R172 bounds its passes by `|BL| / 4 + 1`. -/
def drain (bl : Bytes) : List Bytes × Bytes := drainPasses (bl.length / 4 + 1) bl

/-- Whether appending `a` would pass a finite `BACKLOG_MAX` (R170). -/
def overflows (s : State) (a : Bytes) : Bool :=
  match s.cfg.backlogMax with
  | none => false
  | some m => decide (s.bl.length + a.length > m)

/-- What FX.EXT and PE.PROC share (R174, R200): BacklogOverflow before anything is written; else append, drain, keep
the backlog left, and report the frames by `result`. -/
def extract (result : List Bytes → Bytes) (a : Bytes) (s : State) : Host.Outcome State Fault Refusal :=
  if overflows s a then raise .backlogOverflow s
  else
    let (fs, last) := drain (blAppend s.bl a)
    finish (result fs) (s.withBacklog last)

/-- FX.EXT (R174). -/
def execFxExt (a : Bytes) (s : State) : Host.Outcome State Fault Refusal := extract framesResult a s

end Sys2Proof.Machine
end

