-- ==== Sys2Proof/Machine/Engine.lean ====
section
/-! DEFINITION. The Protocol Engine: PE.PROC (R200), FX.EXT with the CRC-16 big-endian check of each frame (R203). -/

namespace Sys2Proof.Machine

/-- A frame with its Validity Flag. Every frame has at least 4 bytes (R173), so ShortInput cannot arise (R200). -/
def engineRecord (f : Bytes) : Bool × Bytes := (trailerMatches id f, f)

/-- PE.PROC (R200): the records in extraction order (R201). -/
def execPeProc (a : Bytes) (s : State) : Host.Outcome State Fault Refusal :=
  extract (fun fs => recordsResult (fs.map engineRecord)) a s

end Sys2Proof.Machine
end

