-- ==== Sys2Proof/Machine/Hex.lean ====
section
/-! DEFINITION. The Hex Codec: HEX.ENC (R100), HEX.ISHEX (R103), HEX.DEC (R104). -/

namespace Sys2Proof.Machine

/-- `Digit(n)`: an uppercase hex digit (R101). -/
def hexDigit (n : Nibble) : Byte :=
  if n.toNat ≤ 9 then BitVec.ofNat 8 (0x30 + n.toNat) else BitVec.ofNat 8 (0x41 + (n.toNat - 10))

/-- The two digits of a byte, high nibble first (R43, R100). -/
def hexPair (b : Byte) : Bytes := [hexDigit (b.extractLsb' 4 4), hexDigit (b.extractLsb' 0 4)]

/-- The text of HEX.ENC: the pairs, the separator before every pair but the first (R100). -/
def hexText (sep : Bytes) : Bytes → Bytes
  | [] => []
  | [b] => hexPair b
  | b :: c :: rest => hexPair b ++ sep ++ hexText sep (c :: rest)

/-- HEX.ENC (R100): ResultTooLong when the text does not fit the response's u32 length field. -/
def execHexEnc (a b : Bytes) (s : State) : Host.Outcome State Fault Refusal :=
  let text := hexText b a
  if text.length > 4294967295 then raise .resultTooLong s else finish (countedBytes text) s

/-- The validity predicate over a lexed text: no bad byte, and a positive, even digit count (R103). -/
def lexValid (l : List Nibble × Bool) : Bool :=
  !l.2 && decide (0 < l.1.length) && decide (l.1.length % 2 = 0)

/-- HEX.ISHEX (R103): an invalid text is a result, not an error. -/
def execHexIshex (a : Bytes) (s : State) : Host.Outcome State Fault Refusal :=
  finish (isHexResult (lexValid (lex a)) (lex a).1.length) s

/-- Digits two by two as bytes, `(digits[2k] << 4) | digits[2k+1]` (R104). -/
def pairDigits : List Nibble → Bytes
  | h :: l :: rest => ((h.setWidth 8 <<< 4) ||| l.setWidth 8) :: pairDigits rest
  | _ => []

/-- HEX.DEC (R104): InvalidFormat exactly when HEX.ISHEX says invalid. -/
def execHexDec (a : Bytes) (s : State) : Host.Outcome State Fault Refusal :=
  if lexValid (lex a) then finish (countedBytes (pairDigits (lex a).1)) s else raise .invalidFormat s

end Sys2Proof.Machine
end

