-- ==== Sys2Proof/Machine/Reserved.lean ====
section
/-! DEFINITION. Reserved codes (R65, R223). -/

namespace Sys2Proof.Machine

/-- A reserved `OPC`: its command is consumed whole, it raises IllegalOperation, and its operand is not examined
(R223, R224). -/
def execReserved (_opc : Byte) (_a : Bytes) (s : State) : Host.Outcome State Fault Refusal :=
  raise .illegalOperation s

end Sys2Proof.Machine
end

