-- ==== Sys2Proof/Machine/Dispatch.lean ====
section
/-! DEFINITION. One arm per operation: the meaning it calls. -/

namespace Sys2Proof.Machine

def exec (i : Instr) (s : State) : Host.Outcome State Fault Refusal :=
  match i with
  | .crc8Cmp a => Sys2Proof.Machine.execCrc8Cmp a s
  | .crc8Vfy a => Sys2Proof.Machine.execCrc8Vfy a s
  | .crc16Cmp a => Sys2Proof.Machine.execCrc16Cmp a s
  | .crc16Vfy f => Sys2Proof.Machine.execCrc16Vfy f s
  | .crc16lCmp a => Sys2Proof.Machine.execCrc16lCmp a s
  | .crc16lVfy f => Sys2Proof.Machine.execCrc16lVfy f s
  | .hexEnc a b => Sys2Proof.Machine.execHexEnc a b s
  | .hexDec a => Sys2Proof.Machine.execHexDec a s
  | .hexIshex a => Sys2Proof.Machine.execHexIshex a s
  | .fxExt a => Sys2Proof.Machine.execFxExt a s
  | .peProc a => Sys2Proof.Machine.execPeProc a s
  | .reserved opc a => Sys2Proof.Machine.execReserved opc a s

end Sys2Proof.Machine
end

