-- ==== Sys2Proof/Machine/Step.lean ====
section
/-! DEFINITION. One step: the host's next action, performed whole (R15, R16, R44). -/

namespace Sys2Proof.Machine

/-- One step of the machine. A command runs to its response; a reset empties `BL` and sends none (R250, R269); bytes
that are no command are refused (R63); with nothing issued there is no step (R15). -/
def step (s : State) : Host.Outcome State Fault Refusal :=
  match fetch s with
  | .idle => .fault .awaitingCommand
  | .reset s' => .next s'.applyReset
  | .command i s' => exec i s'
  | .truncated => .refused .truncatedCommand

/-- `s` with the host about to issue the command of that table word (assumption 1). -/
def State.withFetchWord (s : State) (nbits w : Nat) : State := s.issue (tableCommand nbits w)

end Sys2Proof.Machine
end

