-- ==== Sys2Proof/Machine/Assembler.lean ====
section
/-! DEFINITION. The assembler syntax of host programs (R68, R69): one line of ASCII text to the bytes of one command.
Assumption 5 names what R68's grammar leaves open. -/

namespace Sys2Proof.Machine

/-- ASCII text. -/
def ascii (cs : List Char) : Bytes := cs.map (fun c => BitVec.ofNat 8 c.toNat)

/-- The mnemonics and their codes (R64). -/
def mnemonicTable : List (Bytes × Byte) :=
  [(ascii ['C', 'R', 'C', '8', '.', 'C', 'M', 'P'], 0x10), (ascii ['C', 'R', 'C', '8', '.', 'V', 'F', 'Y'], 0x11),
    (ascii ['C', 'R', 'C', '1', '6', '.', 'C', 'M', 'P'], 0x20),
    (ascii ['C', 'R', 'C', '1', '6', '.', 'V', 'F', 'Y'], 0x21),
    (ascii ['C', 'R', 'C', '1', '6', 'L', '.', 'C', 'M', 'P'], 0x22),
    (ascii ['C', 'R', 'C', '1', '6', 'L', '.', 'V', 'F', 'Y'], 0x23),
    (ascii ['H', 'E', 'X', '.', 'E', 'N', 'C'], 0x30), (ascii ['H', 'E', 'X', '.', 'D', 'E', 'C'], 0x31),
    (ascii ['H', 'E', 'X', '.', 'I', 'S', 'H', 'E', 'X'], 0x32),
    (ascii ['F', 'X', '.', 'E', 'X', 'T'], 0x40), (ascii ['P', 'E', '.', 'P', 'R', 'O', 'C'], 0x50)]

/-- Spaces and tabs between the parts of a line. -/
def skipBlank (t : Bytes) : Bytes := t.dropWhile (fun c => c == 0x20 || c == 0x09)

/-- A byte of a mnemonic or directive: a letter, a digit or a full stop. -/
def isWordByte (c : Byte) : Bool :=
  let n := c.toNat
  decide (0x41 ≤ n ∧ n ≤ 0x5A) || decide (0x61 ≤ n ∧ n ≤ 0x7A) || decide (0x30 ≤ n ∧ n ≤ 0x39) || c == 0x2E

/-- Two hex digits as a byte, and the text after them. -/
def twoDigits : Bytes → Option (Byte × Bytes)
  | h :: l :: rest =>
    match hexVal? h, hexVal? l with
    | some x, some y => some ((x.setWidth 8 <<< 4) ||| y.setWidth 8, rest)
    | _, _ => none
  | _ => none

/-- `hexbyte`: two hex digits, optionally after `0x` (R68). -/
def hexByte : Bytes → Option (Byte × Bytes)
  | z :: x :: rest => if z = 0x30 ∧ x = 0x78 then twoDigits rest else twoDigits (z :: x :: rest)
  | _ => none

/-- The rest of a `bytes` operand after its opening brace (R68); the fuel bounds the bytes read. -/
def bytesOperand : Nat → Bytes → Option (Bytes × Bytes)
  | 0, _ => none
  | fuel + 1, t =>
    match skipBlank t with
    | [] => none
    | c :: rest =>
      if c = 0x7D then some ([], rest)
      else do
        let (b, rest) ← hexByte (c :: rest)
        let (bs, rest) ← bytesOperand fuel rest
        pure (b :: bs, rest)

/-- The escape after a backslash: `\t \n \r \\ \" \xHH` (R68). -/
def escape : Bytes → Option (Byte × Bytes)
  | [] => none
  | e :: rest =>
    if e = 0x74 then some (0x09, rest)
    else if e = 0x6E then some (0x0A, rest)
    else if e = 0x72 then some (0x0D, rest)
    else if e = 0x5C then some (0x5C, rest)
    else if e = 0x22 then some (0x22, rest)
    else if e = 0x78 then twoDigits rest
    else none

/-- The rest of a `text` operand after its opening quote (R68); the fuel bounds the characters read. -/
def textOperand : Nat → Bytes → Option (Bytes × Bytes)
  | 0, _ => none
  | _, [] => none
  | fuel + 1, c :: rest =>
    if c = 0x22 then some ([], rest)
    else do
      let (b, rest) ← if c = 0x5C then escape rest else if c.toNat < 0x80 then some (c, rest) else none
      let (bs, rest) ← textOperand fuel rest
      pure (b :: bs, rest)

/-- `operand`: bytes in braces or text in quotes (R68). -/
def operand (t : Bytes) : Option (Bytes × Bytes) :=
  match skipBlank t with
  | [] => none
  | c :: rest =>
    if c = 0x7B then bytesOperand t.length rest
    else if c = 0x22 then textOperand t.length rest
    else none

/-- A comma before an operand (R68). -/
def comma (t : Bytes) : Option Bytes :=
  match skipBlank t with
  | [] => none
  | c :: rest => if c = 0x2C then some rest else none

/-- Nothing more on the line, or a comment (R68). -/
def lineEnds (t : Bytes) : Bool :=
  match skipBlank t with
  | [] => true
  | c :: _ => c == 0x3B

/-- The command of one line: `.op` gives a format C1 command with any code; HEX.ENC takes a second operand, by default
one space (R69); every other mnemonic takes one operand. -/
def assemble (line : Bytes) : Option Bytes := do
  let t := skipBlank line
  let word := t.takeWhile isWordByte
  let rest := t.dropWhile isWordByte
  if word = ascii ['.', 'o', 'p'] then
    let (opc, rest) ← hexByte (skipBlank rest)
    let rest ← comma rest
    let (a, rest) ← operand rest
    if operandFits a && lineEnds rest then pure (opc :: putOperand a) else none
  else
    let opc ← mnemonicTable.lookup word
    let (a, rest) ← operand rest
    if opc = 0x30 then
      if lineEnds rest then (if operandFits a then pure (encode (.hexEncDefault a)) else none)
      else
        let rest ← comma rest
        let (b, rest) ← operand rest
        if operandFits a && operandFits b && lineEnds rest then pure (encode (.hexEnc a b)) else none
    else if operandFits a && lineEnds rest then pure (opc :: putOperand a) else none

end Sys2Proof.Machine
end

