-- ==== Sys2Proof/Machine/System.lean ====
section
/-! DEFINITION. Several instances side by side, one per channel (R30, R230): they have no identifier and no signalling,
and share only `T8`, which nothing writes. -/

namespace Sys2Proof.Machine

/-- The instances of a system. -/
abbrev System := List State

/-- One step of instance `k`. -/
def systemStep (y : System) (k : Fin y.length) : Host.Outcome System Fault Refusal :=
  match step y[k] with
  | .next s => .next (y.set k s)
  | .fault r => .fault r
  | .refused r => .refused r

end Sys2Proof.Machine
end

