-- ==== Sys2Proof/Safety.lean ====
section
/-! DEFINITION. What statements say of the machine: the invariant, and the spec's rules written a second time, apart from
the machine's own definitions (relations for the loops, plain Nat arithmetic for the registers). -/

namespace Sys2Proof.Spec

open Sys2Proof.Machine

/-- R22: `BL = [] or (BL[0] = 0x7F and (|BL| < 4 or |BL| < 4 + BL[1]))`. The default of `BL[1]` is met only below 2
bytes, where the first disjunct holds. -/
abbrev BacklogInv (bl : Bytes) : Prop :=
  bl = [] ∨ (bl.head? = some sentinel ∧ (bl.length < 4 ∨ bl.length < 4 + (bl.getD 1 0).toNat))

/-- What holds between any two operations: R22 of the backlog, the table is the ROM of R24 (R23), and the build is one
R264 allows. -/
structure Inv (s : State) : Prop where
  backlog : BacklogInv s.bl
  rom : s.t8 = crc8Rom
  build : s.cfg.legal = true

/-- A frame: sentinel, length byte, that many payload bytes, two trailer bytes (R173). -/
def IsFrame (f : Bytes) : Prop := ∃ l rest, f = sentinel :: l :: rest ∧ rest.length = l.toNat + 2

/-- Resynchronization as a relation (R171): bytes other than the sentinel are dropped until the head is the sentinel or
nothing is left. -/
def Resynced (bl r : Bytes) : Prop :=
  ∃ dropped, bl = dropped ++ r ∧ sentinel ∉ dropped ∧ (r = [] ∨ r.head? = some sentinel)

/-- No complete frame stands at the head (R172 steps 2b and 2d). -/
def Incomplete (r : Bytes) : Prop := r.length < 4 ∨ ∃ h l t, r = h :: l :: t ∧ r.length < 4 + l.toNat

/-- The loop of R172 as a relation between the backlog it starts from, the frames it emits and the backlog it leaves. -/
inductive Drains : Bytes → List Bytes → Bytes → Prop where
  | stop {bl r} : Resynced bl r → Incomplete r → Drains bl [] r
  | take {bl f rest fs last} : Resynced bl (f ++ rest) → IsFrame f → Drains rest fs last → Drains bl (f :: fs) last

/-- One round of R133 on the register as a number below 256. -/
def crc8Round (r : Nat) : Nat := if r / 128 % 2 = 1 then (r * 2 % 256) ^^^ 0x07 else r * 2 % 256

/-- The bitwise CRC-8 of R133. -/
def crc8 (a : Bytes) : Nat := a.foldl (fun r b => Nat.repeat crc8Round 8 (r ^^^ b.toNat)) 0

/-- One round of R139 on the register as a number below 65536. -/
def crc16Round (r : Nat) : Nat := if r / 32768 % 2 = 1 then (r * 2 % 65536) ^^^ 0x1021 else r * 2 % 65536

/-- `Crc16(A)` of R139 as a number. -/
def crc16 (a : Bytes) : Nat := a.foldl (fun r b => Nat.repeat crc16Round 8 (r ^^^ (b.toNat * 256))) 0xFFFF

/-- A number below 256 as a byte. -/
def byte (n : Nat) : Byte := BitVec.ofNat 8 n

/-- The two bytes of a u16, most-significant first (R43). -/
def u16Bytes (n : Nat) : Bytes := [byte (n / 256), byte (n % 256)]

/-- Whether the two bytes after `body` are its CRC-16, big-endian (R141). -/
def trailerValid (f : Bytes) : Bool :=
  f.drop (f.length - 2) == u16Bytes (crc16 (f.take (f.length - 2)))

/-- ASCII `0` to `9` and `A` to `F`, by value (R101). -/
def upperDigits : Bytes :=
  [0x30, 0x31, 0x32, 0x33, 0x34, 0x35, 0x36, 0x37, 0x38, 0x39, 0x41, 0x42, 0x43, 0x44, 0x45, 0x46]

/-- ASCII `0` to `9` and `a` to `f`, by value (R102). -/
def lowerDigits : Bytes :=
  [0x30, 0x31, 0x32, 0x33, 0x34, 0x35, 0x36, 0x37, 0x38, 0x39, 0x61, 0x62, 0x63, 0x64, 0x65, 0x66]

/-- The value of a hex digit of either case: its place in its digit list (R102). -/
def digitValue? (c : Byte) : Option Nat :=
  match upperDigits.idxOf? c with
  | some v => some v
  | none => lowerDigits.idxOf? c

/-- The whitespace bytes (R14, R102). -/
def whitespace : Bytes := [0x09, 0x0A, 0x0B, 0x0C, 0x0D, 0x20]

/-- `text` opens with `0x` or `0X`, and `t` follows (R102). -/
def Marked (text t : Bytes) : Prop := ∃ x, text = 0x30 :: x :: t ∧ (x = 0x78 ∨ x = 0x58)

/-- The body the lexer reads: leading whitespace gone, then one optional mark gone (R102). -/
def Body (text body : Bytes) : Prop :=
  ∃ spaces rest, text = spaces ++ rest ∧ (∀ c ∈ spaces, c ∈ whitespace) ∧ (∀ c ∈ rest.head?, c ∉ whitespace) ∧
    (Marked rest body ∨ ((¬ ∃ t, Marked rest t) ∧ body = rest))

/-- The values of a body's hex digits, in order (R102). -/
def digits (body : Bytes) : List Nat := body.filterMap digitValue?

/-- A bad byte: neither a hex digit nor whitespace (R102). -/
def hasBad (body : Bytes) : Prop := ∃ c ∈ body, digitValue? c = none ∧ c ∉ whitespace

/-- The predicate of R103. -/
def ValidHex (body : Bytes) : Prop := ¬ hasBad body ∧ 0 < (digits body).length ∧ (digits body).length % 2 = 0

/-- The length of HEX.ENC's text (R100). -/
def hexTextLength (a b : Bytes) : Nat := if a = [] then 0 else 2 * a.length + (a.length - 1) * b.length

/-- The text of HEX.ENC, byte by byte (R100, R101): pair `k` stands at `k * (2 + |B|)`, and the separator after every
pair but the last. -/
def IsHexText (a b text : Bytes) : Prop :=
  text.length = hexTextLength a b ∧
    ∀ k c, a[k]? = some c →
      text[k * (2 + b.length)]? = upperDigits[c.toNat / 16]? ∧
      text[k * (2 + b.length) + 1]? = upperDigits[c.toNat % 16]? ∧
      ∀ j < b.length, k + 1 < a.length → text[k * (2 + b.length) + 2 + j]? = b[j]?

/-- The u32 at offset `k`, if the bytes reach that far. -/
def u32At (bs : Bytes) (k : Nat) : Option Nat :=
  match bs.drop k with
  | b0 :: b1 :: b2 :: b3 :: _ => some (256 * (256 * (256 * b0.toNat + b1.toNat) + b2.toNat) + b3.toNat)
  | _ => none

/-- The length a command's header announces (R61), if the header itself is there. -/
def announced? (bs : Bytes) : Option Nat :=
  match u32At bs 1 with
  | none => none
  | some la =>
    if bs.head? = some 0x30 then
      match u32At bs (5 + la) with
      | none => none
      | some lb => some (9 + la + lb)
    else some (5 + la)

/-- The codes of format C1 that name a row of their own, and what each decodes to (R64). -/
def formatC1 : List (Byte × (Bytes → Instr)) :=
  [(0x10, .crc8Cmp), (0x11, .crc8Vfy), (0x20, .crc16Cmp), (0x21, .crc16Vfy), (0x22, .crc16lCmp), (0x23, .crc16lVfy),
    (0x31, .hexDec), (0x32, .hexIshex), (0x40, .fxExt), (0x50, .peProc)]

/-- The codes with a row of their own (R64): those of format C1, and HEX.ENC's. -/
def namedCodes : Bytes := [0x10, 0x11, 0x20, 0x21, 0x22, 0x23, 0x30, 0x31, 0x32, 0x40, 0x50]

/-- A response with status OK (R66). -/
def okResponse (result : Bytes) : Bytes := 0x00 :: result

/-- The state after a response, everything else unchanged. -/
def answered (s : State) (r : Bytes) : State := { s with out := s.out ++ [r] }

/-- Which statuses an operation can end with (R220, R224). CRC16L operations can also be absent from a build (R65). -/
def statusesOf : Instr → Bytes
  | .crc8Cmp _ => [0x00]
  | .crc8Vfy _ => [0x02]
  | .crc16Cmp _ => [0x00]
  | .crc16Vfy _ => [0x00, 0x03]
  | .crc16lCmp _ => [0x00, 0x02]
  | .crc16lVfy _ => [0x00, 0x02, 0x03]
  | .hexEnc _ _ => [0x00, 0x05]
  | .hexDec _ => [0x00, 0x01]
  | .hexIshex _ => [0x00]
  | .fxExt _ => [0x00, 0x04]
  | .peProc _ => [0x00, 0x04]
  | .reserved _ _ => [0x02]

/-- The chunk an operation appends to `BL`, if it is one of the two that write it (R20, R46). -/
def chunkOf : Instr → Option Bytes
  | .fxExt a => some a
  | .peProc a => some a
  | _ => none

/-- A chunk issued to PE.PROC (`true`) or to FX.EXT (`false`). -/
def streamOp (c : Bool × Bytes) : Instr := if c.1 then .peProc c.2 else .fxExt c.2

/-- The response that reports the frames `fs` to PE.PROC (`true`), each after its validity byte, or to FX.EXT
(`false`) (R66, R200). -/
def streamResponse (engine : Bool) (fs : List Bytes) : Bytes :=
  if engine then
    okResponse (u32be fs.length ++ (fs.map (fun f => (if trailerValid f then 0x01 else 0x00) :: f)).flatten)
  else okResponse (u32be fs.length ++ fs.flatten)

/-- The operations one after another (R47), stopping at the first that gives no next state. -/
def execAll : List Instr → State → Host.Outcome State Fault Refusal
  | [], s => .next s
  | i :: is, s =>
    match exec i s with
    | .next t => execAll is t
    | .fault r => .fault r
    | .refused r => .refused r

/-- `BACKLOG_MAX` is not passed by appending `n` bytes (R170). -/
def Fits (s : State) (n : Nat) : Prop := ∀ m, s.cfg.backlogMax = some m → s.bl.length + n ≤ m

end Sys2Proof.Spec
end

