-- ==== Sys2Proof/Certificates/Slice0/Obligations.lean ====
section
/-! DEFINITION. The statements about SPA-CORE. Each docstring names the rules of spec/ it formalises. -/

open Sys2Proof Sys2Proof.Machine Sys2Proof.Spec

/-! Reset, steps and runs. -/

/-- R250: after reset `BL` is empty and `T8` holds the entries of R24, each the one R23's rule gives. -/
def Obligations.ResetStateAsStated : Prop :=
  State.reset.bl = [] ∧ State.reset.t8 = crc8Rom ∧
    ∀ i : Byte, (readT8 State.reset.t8 i).toNat = Nat.repeat Spec.crc8Round 8 i.toNat

/-- R250, R251: the host's reset empties `BL` and touches nothing else; it sends no response (R269). -/
def Obligations.ResetActionEmptiesBacklog : Prop :=
  ∀ s rest, s.host = .reset :: rest → step s = .next { s with bl := [], host := rest }

/-- R250, R22: the invariant holds right after reset (with the build of assumption 2). -/
def Obligations.ResetEstablishesInvariant : Prop := Spec.Inv State.reset

/-- R22: every step keeps the invariant, from every state that has it. -/
def Obligations.EveryStepKeepsInvariant : Prop := ∀ s t, Spec.Inv s → step s = .next t → Spec.Inv t

/-- R15, R16, R61: when the bytes the host sends next open with the command `i`, one step is `exec i` with exactly that
command's bytes taken. The host's queue is the model's own (assumption 1), and that the bytes left over in the sent
string are the next command's is the model's inference (assumption 10). -/
def Obligations.StepRunsTheDecodedCommand : Prop :=
  ∀ s bytes rest i more, s.host = .send bytes :: rest → decode bytes = .ok (i, more) →
    step s = exec i { s with host := if more = [] then rest else .send more :: rest }

/-- R63: bytes shorter than the length their header announces (or with no whole header) are refused, and no step is
performed. -/
def Obligations.TruncatedCommandIsRefused : Prop :=
  ∀ s bytes rest, s.host = .send bytes :: rest → (∀ n, announced? bytes = some n → bytes.length < n) →
    step s = .refused .truncatedCommand

/-- R15, R270: with nothing issued there is no step (a named stop of the model, assumption 3). -/
def Obligations.IdleHostHasNoStep : Prop := ∀ s, s.host = [] → step s = .fault .awaitingCommand

/-- R47, R268, R270: from every state, a run of k commands ends after k steps with the k responses in order, and its
outcome is that of the operations one after another. The list of commands to come and the list of responses are the
model's own (assumption 1). -/
def Obligations.RunAnswersEveryCommand : Prop :=
  ∀ (cmds : List Instr) (s : State), (∀ i ∈ cmds, WellFormed i) →
    ∃ (t : State) (rs : List Bytes),
      core.run cmds.length { s with host := cmds.map (fun i => .send (encode i)) } = .next t ∧
      execAll cmds { s with host := [] } = .next t ∧ t.host = [] ∧ t.out = s.out ++ rs ∧ rs.length = cmds.length

/-- R30, R230: a step of one instance leaves every other instance as it was. -/
def Obligations.InstancesAreIndependent : Prop :=
  ∀ (y : System) (k : Fin y.length) (s : State), step y[k] = .next s →
    ∃ y', systemStep y k = .next y' ∧ y'.length = y.length ∧ y'[k.val]? = some s ∧
      ∀ j, j ≠ k.val → y'[j]? = y[j]?

/-! Commands. -/

/-- R61: a command whose announced length is there is decoded, and takes exactly that many bytes. -/
def Obligations.CommandLengthIsAnnounced : Prop :=
  ∀ bytes n, announced? bytes = some n → n ≤ bytes.length →
    ∃ i, decode bytes = .ok (i, bytes.drop n) ∧ WellFormed i

/-- R60 to R65: decoding an encoded well-formed command gives it back, whatever bytes follow. -/
def Obligations.DecodeInvertsEncode : Prop :=
  ∀ i rest, WellFormed i → decode (encode i ++ rest) = .ok (i, rest)

/-- R60 to R65: the bytes of a command have one meaning, and it is well formed. -/
def Obligations.DecodedBytesAreTheEncoding : Prop :=
  ∀ bytes i rest, decode bytes = .ok (i, rest) → WellFormed i ∧ bytes = encode i ++ rest

/-- R64: the operation map, code by code: each named code of format C1, HEX.ENC in format C2, and every other code
reserved, in format C1. -/
def Obligations.OperationMapAsListed : Prop :=
  (∀ p ∈ formatC1, ∀ a more, operandFits a = true →
    decode (p.1 :: (u32be a.length ++ (a ++ more))) = .ok (p.2 a, more)) ∧
  (∀ a b more, operandFits a = true → operandFits b = true →
    decode (0x30 :: (u32be a.length ++ (a ++ (u32be b.length ++ (b ++ more))))) = .ok (.hexEnc a b, more)) ∧
  (∀ opc a more, opc ∉ namedCodes → operandFits a = true →
    decode (opc :: (u32be a.length ++ (a ++ more))) = .ok (.reserved opc a, more))

/-- R64, R65: the reserved ranges are exactly the codes that name no implemented operation. -/
def Obligations.ReservedRangesAreTheRest : Prop :=
  ∀ opc : Byte, reservedCode opc = true ↔ opc = 0x11 ∨ opc ∉ namedCodes

/-- R43, R60: a length field is four bytes, most-significant first, and reads back as the length. -/
def Obligations.LengthFieldsReadBack : Prop :=
  ∀ n rest, n ≤ maxOperandLen → u32At (u32be n ++ rest) 0 = some n

/-- R70: the spec's own encoding examples decode to the commands they stand for. -/
def Obligations.ExampleCommandsDecode : Prop :=
  decode [0x20, 0x00, 0x00, 0x00, 0x04, 0x7F, 0x02, 0xAB, 0xCD] = .ok (.crc16Cmp [0x7F, 0x02, 0xAB, 0xCD], []) ∧
  decode [0x30, 0x00, 0x00, 0x00, 0x02, 0x7F, 0x0A, 0x00, 0x00, 0x00, 0x01, 0x20] =
    .ok (.hexEnc [0x7F, 0x0A] [0x20], []) ∧
  decode [0x31, 0x00, 0x00, 0x00, 0x04, 0x30, 0x78, 0x37, 0x66] = .ok (.hexDec [0x30, 0x78, 0x37, 0x66], []) ∧
  decode [0x50, 0x00, 0x00, 0x00, 0x00] = .ok (.peProc [], []) ∧
  decode [0x11, 0x00, 0x00, 0x00, 0x01, 0x00] = .ok (.crc8Vfy [0x00], [])

/-- R68 to R70: the example lines assemble to the example bytes. -/
def Obligations.ExampleLinesAssemble : Prop :=
  -- CRC16.CMP with the bytes 7F 02 AB CD in braces
  assemble (ascii ['C', 'R', 'C', '1', '6', '.', 'C', 'M', 'P', ' '] ++ [0x7B] ++
      ascii ['7', 'F', ' ', '0', '2', ' ', 'A', 'B', ' ', 'C', 'D'] ++ [0x7D]) =
    some [0x20, 0x00, 0x00, 0x00, 0x04, 0x7F, 0x02, 0xAB, 0xCD] ∧
  -- HEX.ENC with the bytes 7F 0A, and the default separator
  assemble (ascii ['H', 'E', 'X', '.', 'E', 'N', 'C', ' '] ++ [0x7B] ++ ascii ['7', 'F', ' ', '0', 'A'] ++ [0x7D]) =
    some [0x30, 0x00, 0x00, 0x00, 0x02, 0x7F, 0x0A, 0x00, 0x00, 0x00, 0x01, 0x20] ∧
  -- HEX.DEC "0x7f"
  assemble (ascii ['H', 'E', 'X', '.', 'D', 'E', 'C', ' ', '"', '0', 'x', '7', 'f', '"']) =
    some [0x31, 0x00, 0x00, 0x00, 0x04, 0x30, 0x78, 0x37, 0x66] ∧
  -- PE.PROC with empty braces
  assemble (ascii ['P', 'E', '.', 'P', 'R', 'O', 'C', ' '] ++ [0x7B, 0x7D]) = some [0x50, 0x00, 0x00, 0x00, 0x00] ∧
  -- .op 0x11, with the byte 00 in braces
  assemble (ascii ['.', 'o', 'p', ' ', '0', 'x', '1', '1', ',', ' '] ++ [0x7B] ++ ascii ['0', '0'] ++ [0x7D]) =
    some [0x11, 0x00, 0x00, 0x00, 0x01, 0x00]

/-! Responses, statuses and frames. -/

/-- R66: every operation, on every operand and in every state, completes with exactly one response: OK and a result, or
one non-OK status byte alone. The table, the build and what the host has still to issue are left as they were. -/
def Obligations.EveryCommandIsAnsweredOnce : Prop :=
  ∀ i s, ∃ t r, exec i s = .next t ∧ t.out = s.out ++ [r] ∧ t.host = s.host ∧ t.t8 = s.t8 ∧ t.cfg = s.cfg ∧
    ((∃ result, r = okResponse result) ∨ ∃ c, c ≠ 0x00 ∧ r = [c])

/-- R221: an operation that ends with a non-OK status writes no state; its response is that byte alone. -/
def Obligations.ErrorsLeaveNoTrace : Prop :=
  ∀ i s t c p, exec i s = .next t → t.out = s.out ++ [c :: p] → c ≠ 0x00 → t = answered s [c]

/-- R220, R224: each operation ends with one of its own statuses. -/
def Obligations.StatusesPerOperation : Prop :=
  ∀ i s, ∃ t c p, exec i s = .next t ∧ t.out = s.out ++ [c :: p] ∧ c ∈ statusesOf i

/-- R46: the operations other than FX.EXT and PE.PROC write no state, and read none: two instances of the same build
with the same ROM answer alike, whatever their backlogs hold. -/
def Obligations.PureOperationsIgnoreBacklog : Prop :=
  ∀ i s s', chunkOf i = none → s.t8 = s'.t8 → s.cfg = s'.cfg →
    ∃ r, exec i s = .next (answered s r) ∧ exec i s' = .next (answered s' r)

/-- R20, R174, R200: FX.EXT and PE.PROC write `BL` and nothing else but their response. -/
def Obligations.StreamingWritesOnlyBacklog : Prop :=
  ∀ engine a s, ∃ bl r, exec (streamOp (engine, a)) s = .next { s with bl := bl, out := s.out ++ [r] }

/-- R21: an operation leaves `BL` alone, or appends its chunk at the tail and removes bytes from the head. -/
def Obligations.BacklogChangesOnlyAtItsEnds : Prop :=
  ∀ i s, ∃ t, exec i s = .next t ∧ (t.bl = s.bl ∨ ∃ a, chunkOf i = some a ∧ t.bl <:+ s.bl ++ a)

/-! Checksums. -/

/-- R23: each entry of the table is 8 rounds of the shift/XOR rule on its index, and no step writes the table. -/
def Obligations.CrcTableFollowsItsRule : Prop :=
  (∀ i : Byte, (readT8 crc8Rom i).toNat = Nat.repeat Spec.crc8Round 8 i.toNat) ∧
    ∀ s t, step s = .next t → t.t8 = s.t8

/-- R132: CRC8.CMP folds the table lookup over its operand from 0x00. -/
def Obligations.CrcEightFoldsTheTable : Prop :=
  ∀ a s, exec (.crc8Cmp a) s =
    .next (answered s (okResponse [a.foldl (fun r b => readT8 s.t8 (r ^^^ b)) 0x00]))

/-- R133: with the ROM's contents, CRC8.CMP gives the register of the bitwise form. -/
def Obligations.CrcEightIsBitwise : Prop :=
  ∀ a s, s.t8 = crc8Rom → exec (.crc8Cmp a) s = .next (answered s (okResponse [byte (Spec.crc8 a)]))

/-- R134: CRC8.VFY raises IllegalOperation, whatever its operand, and no state changes. -/
def Obligations.CrcEightVerifyIsIllegal : Prop :=
  ∀ a s, exec (.crc8Vfy a) s = .next (answered s [0x02])

/-- R139, R140: CRC16.CMP gives the register, most-significant byte first. -/
def Obligations.CrcSixteenCompute : Prop :=
  ∀ a s, exec (.crc16Cmp a) s = .next (answered s (okResponse (u16Bytes (Spec.crc16 a))))

/-- R141: CRC16.VFY raises ShortInput below 2 bytes, and else compares the last two bytes with the CRC-16 of the rest. -/
def Obligations.CrcSixteenVerify : Prop :=
  ∀ f s, exec (.crc16Vfy f) s = .next (answered s
    (if f.length < 2 then [0x03] else okResponse [if trailerValid f then 0x01 else 0x00]))

/-- R143: in a build with the little-endian mode, CRC16L.CMP gives the register least-significant byte first. -/
def Obligations.LittleEndianCompute : Prop :=
  ∀ a s, s.cfg.hasCrc16Le = true →
    exec (.crc16lCmp a) s = .next (answered s (okResponse (u16Bytes (Spec.crc16 a)).reverse))

/-- R144: in a build with the little-endian mode, CRC16L.VFY raises ShortInput below 2 bytes, and else compares the last
two bytes with the swapped CRC-16 of the rest. -/
def Obligations.LittleEndianVerify : Prop :=
  ∀ f s, s.cfg.hasCrc16Le = true → exec (.crc16lVfy f) s = .next (answered s
    (if f.length < 2 then [0x03]
      else okResponse [if f.drop (f.length - 2) = (u16Bytes (Spec.crc16 (f.take (f.length - 2)))).reverse then 0x01
        else 0x00]))

/-- R65: in a build without the little-endian mode, its two operations answer as a reserved code does. That the meanings
say so, and not the decoder, is the model's choice (assumption 2). -/
def Obligations.LittleEndianReservedWhenAbsent : Prop :=
  ∀ a s, s.cfg.hasCrc16Le = false →
    exec (.crc16lCmp a) s = .next (answered s [0x02]) ∧ exec (.crc16lVfy a) s = .next (answered s [0x02])

/-- R145 (an inference the spec marks as its own): a trailer made by a mode's compute verifies under that mode. -/
def Obligations.ComputedTrailersVerify : Prop :=
  (∀ h s, ∃ t, exec (.crc16Cmp h) s = .next (answered s (okResponse t)) ∧
    exec (.crc16Vfy (h ++ t)) s = .next (answered s (okResponse [0x01]))) ∧
  (∀ h s, s.cfg.hasCrc16Le = true → ∃ t, exec (.crc16lCmp h) s = .next (answered s (okResponse t)) ∧
    exec (.crc16lVfy (h ++ t)) s = .next (answered s (okResponse [0x01])))

/-- R147 (general knowledge, the spec says): a string followed by its CRC-16 has the CRC-16 zero. -/
def Obligations.CrcSixteenResidue : Prop :=
  ∀ h s, ∃ t, exec (.crc16Cmp h) s = .next (answered s (okResponse t)) ∧
    exec (.crc16Cmp (h ++ t)) s = .next (answered s (okResponse [0x00, 0x00]))

/-- R147 (general knowledge, the spec says): a string followed by its CRC-8 has the CRC-8 zero. -/
def Obligations.CrcEightResidue : Prop :=
  ∀ h s, s.t8 = crc8Rom → ∃ c, exec (.crc8Cmp h) s = .next (answered s (okResponse [c])) ∧
    exec (.crc8Cmp (h ++ [c])) s = .next (answered s (okResponse [0x00]))

/-- R146 (general knowledge, the spec says): no change of one bit leaves a byte string that CRC16.VFY accepts
acceptable. -/
def Obligations.SingleBitErrorsAreDetected : Prop :=
  ∀ (f : Bytes) (i : Nat) (c : Byte) (k : Nat) (s : State), f[i]? = some c → k < 8 →
    exec (.crc16Vfy f) s = .next (answered s (okResponse [0x01])) →
    exec (.crc16Vfy (f.set i (c ^^^ (1#8 <<< k)))) s = .next (answered s (okResponse [0x00]))

/-- R144, R266: a trailer in the other byte order fails, unless both of its bytes are the same. -/
def Obligations.SwappedTrailersFail : Prop :=
  ∀ h s, Spec.crc16 h / 256 ≠ Spec.crc16 h % 256 →
    exec (.crc16Vfy (h ++ (u16Bytes (Spec.crc16 h)).reverse)) s = .next (answered s (okResponse [0x00])) ∧
    (s.cfg.hasCrc16Le = true →
      exec (.crc16lVfy (h ++ u16Bytes (Spec.crc16 h))) s = .next (answered s (okResponse [0x00])))

/-! Hex codec. -/

/-- R100, R101: HEX.ENC's text has the stated length and the stated byte at every place; it is answered with its length,
or with ResultTooLong when that does not fit 32 bits. -/
def Obligations.HexEncode : Prop :=
  ∀ a b s, ∃ text, IsHexText a b text ∧ exec (.hexEnc a b) s = .next (answered s
    (if hexTextLength a b ≤ 4294967295 then okResponse (u32be text.length ++ text) else [0x05]))

/-- R102, R103: HEX.ISHEX answers whether the body (there is one) is valid, and the count of all its hex digits. -/
def Obligations.HexPredicate : Prop :=
  ∀ a s, ∃ body v, Body a body ∧ (∀ other, Body a other → other = body) ∧
    ((ValidHex body ∧ v = 0x01) ∨ (¬ ValidHex body ∧ v = 0x00)) ∧
    exec (.hexIshex a) s = .next (answered s (okResponse (v :: u32be (digits body).length)))

/-- R102, R104: HEX.DEC answers the digits two by two, high nibble first, or InvalidFormat when the body is not valid. -/
def Obligations.HexDecode : Prop :=
  ∀ a s, ∃ body, Body a body ∧
    ((ValidHex body ∧ ∃ bytes, 2 * bytes.length = (digits body).length ∧
        (∀ k b, bytes[k]? = some b → ∃ h l, (digits body)[2 * k]? = some h ∧ (digits body)[2 * k + 1]? = some l ∧
          b.toNat = 16 * h + l) ∧
        exec (.hexDec a) s = .next (answered s (okResponse (u32be bytes.length ++ bytes)))) ∨
      (¬ ValidHex body ∧ exec (.hexDec a) s = .next (answered s [0x01])))

/-- R104: HEX.DEC raises InvalidFormat exactly when HEX.ISHEX of the same text says invalid. -/
def Obligations.HexDecodeFailsExactlyWhenInvalid : Prop :=
  ∀ a s, exec (.hexDec a) s = .next (answered s [0x01]) ↔
    ∃ count, exec (.hexIshex a) s = .next (answered s (okResponse (0x00 :: count)))

/-- R105 (an inference the spec marks as its own; C1): encoding a non-empty string with a whitespace separator and
decoding the text gives the string back. -/
def Obligations.HexRoundTrip : Prop :=
  ∀ a b s, a ≠ [] → (∀ c ∈ b, c ∈ whitespace) → hexTextLength a b ≤ 4294967295 →
    ∃ text, exec (.hexEnc a b) s = .next (answered s (okResponse (u32be text.length ++ text))) ∧
      exec (.hexDec text) s = .next (answered s (okResponse (u32be a.length ++ a)))

/-- R105 (an inference the spec marks as its own; C1): the empty string encodes to the empty text, which does not
decode. -/
def Obligations.EmptyHexRoundTripFails : Prop :=
  ∀ b s, exec (.hexEnc [] b) s = .next (answered s (okResponse [0x00, 0x00, 0x00, 0x00])) ∧
    exec (.hexDec []) s = .next (answered s [0x01])

/-! Frames. -/

/-- R170 to R172, R174: within `BACKLOG_MAX`, FX.EXT answers the frames the loop of R172 takes from `BL ++ A`, and leaves
the backlog the loop leaves (the loop always ends); past it, FX.EXT raises BacklogOverflow and nothing changes. -/
def Obligations.ExtractFollowsTheLoop : Prop :=
  ∀ a s,
    (Fits s a.length → (∃ fs last, Drains (s.bl ++ a) fs last) ∧
      ∀ fs last, Drains (s.bl ++ a) fs last →
        exec (.fxExt a) s =
          .next { s with bl := last, out := s.out ++ [okResponse (u32be fs.length ++ fs.flatten)] }) ∧
    (¬ Fits s a.length → exec (.fxExt a) s = .next (answered s [0x04]))

/-- R200, R201: PE.PROC does as FX.EXT does, with its exception, and answers each frame, oldest first, after its validity
byte. -/
def Obligations.ProcessReportsRecords : Prop :=
  ∀ a s,
    (Fits s a.length → (∃ fs last, Drains (s.bl ++ a) fs last) ∧
      ∀ fs last, Drains (s.bl ++ a) fs last →
        exec (.peProc a) s = .next { s with
          bl := last,
          out := s.out ++ [okResponse (u32be fs.length ++
            (fs.map (fun f => (if trailerValid f then 0x01 else 0x00) :: f)).flatten)] }) ∧
    (¬ Fits s a.length → exec (.peProc a) s = .next (answered s [0x04]))

/-- R173: every frame answered is `4 + L` bytes, from 4 to 259, with the sentinel and its length byte in front; so the
frames are at most a quarter of the bytes there were. -/
def Obligations.AnsweredFramesAreWhole : Prop :=
  ∀ engine a s, Fits s a.length → ∃ fs last,
    exec (streamOp (engine, a)) s = .next { s with bl := last, out := s.out ++ [streamResponse engine fs] } ∧
    (∀ f ∈ fs, IsFrame f ∧ 4 ≤ f.length ∧ f.length ≤ 259) ∧ 4 * fs.length ≤ s.bl.length + a.length

/-- R66: frames delimit themselves: the response FX.EXT or PE.PROC sends determines the list of frames it reports, so a
host splits it in one way only. -/
def Obligations.ResponsesSplitOneWay : Prop :=
  ∀ engine a s, Fits s a.length → ∃ fs last r,
    exec (streamOp (engine, a)) s = .next { s with bl := last, out := s.out ++ [r] } ∧
    Drains (s.bl ++ a) fs last ∧ (∀ f ∈ fs, IsFrame f) ∧
    r = okResponse (if engine then recordsResult (fs.map engineRecord) else framesResult fs) ∧
    ∀ gs, (∀ g ∈ gs, IsFrame g) →
      r = okResponse (if engine then recordsResult (gs.map engineRecord) else framesResult gs) → gs = fs

/-- R176, R22 (an inference the spec marks as its own): whatever `BL` held, a chunk that fits leaves it empty or holding
an incomplete frame, so at most 258 bytes. -/
def Obligations.StreamingLeavesAnIncompleteFrame : Prop :=
  ∀ engine a s, Fits s a.length → ∃ last r,
    exec (streamOp (engine, a)) s = .next { s with bl := last, out := s.out ++ [r] } ∧
    BacklogInv last ∧ last.length ≤ 258

/-- R174, R200 (corner cases): between operations an empty chunk yields nothing and changes nothing. -/
def Obligations.EmptyChunkYieldsNothing : Prop :=
  ∀ engine s, Spec.Inv s →
    exec (streamOp (engine, [])) s = .next (answered s (okResponse [0x00, 0x00, 0x00, 0x00]))

/-- R177, R204 (an inference the spec marks as its own): with an unbounded backlog, or a bound that no step passes (the
chunks together fit, so each of them does when its turn comes), chunks issued one by one, to FX.EXT and PE.PROC in any
mixture, yield the frames of their concatenation issued at once, and the same final `BL`. -/
def Obligations.FragmentationInvariance : Prop :=
  ∀ (chunks : List (Bool × Bytes)) (engine : Bool) (s : State), chunks ≠ [] →
    Fits s (chunks.map Prod.snd).flatten.length →
    ∃ (fss : List (List Bytes)) (last : Bytes), fss.length = chunks.length ∧ (∀ f ∈ fss.flatten, IsFrame f) ∧
      execAll (chunks.map streamOp) s = .next { s with
        bl := last, out := s.out ++ List.zipWith (fun c fs => streamResponse c.1 fs) chunks fss } ∧
      exec (streamOp (engine, (chunks.map Prod.snd).flatten)) s = .next { s with
        bl := last, out := s.out ++ [streamResponse engine fss.flatten] }

/-- R175, R178, R179 (inferences the spec marks as its own): from an empty backlog, a chunk of whole frames, whatever
bytes they hold, with garbage free of 0x7F before, between and after them, yields exactly those frames in order. -/
def Obligations.AllWholeFramesComeOut : Prop :=
  ∀ engine (parts : List (Bytes × Bytes)) tail s, s.bl = [] →
    (∀ p ∈ parts, sentinel ∉ p.1 ∧ IsFrame p.2) → sentinel ∉ tail →
    Fits s ((parts.map (fun p => p.1 ++ p.2)).flatten ++ tail).length →
    exec (streamOp (engine, (parts.map (fun p => p.1 ++ p.2)).flatten ++ tail)) s =
      .next (answered s (streamResponse engine (parts.map Prod.snd)))

/-- R67, R205: a frame a host builds from a payload and CRC16.CMP is reported by PE.PROC as one valid record, in every
build R264 allows. -/
def Obligations.HostBuiltFramesAreValid : Prop :=
  ∀ payload s, payload.length ≤ 255 → s.bl = [] → s.cfg.legal = true →
    ∃ t, exec (.crc16Cmp (0x7F :: byte payload.length :: payload)) s = .next (answered s (okResponse t)) ∧
      exec (.peProc (0x7F :: byte payload.length :: (payload ++ t))) s = .next (answered s
        (okResponse ([0x00, 0x00, 0x00, 0x01, 0x01] ++ (0x7F :: byte payload.length :: (payload ++ t)))))

/-- R223, R65: a command with a reserved code is consumed at its format C1 length and answered with IllegalOperation; no
state changes. The queue it is taken from is the model's own (assumption 1), and that the bytes left over in the sent
string are the next command's is the model's inference (assumption 10). -/
def Obligations.ReservedCommandIsConsumedWhole : Prop :=
  (∀ opc a s, exec (.reserved opc a) s = .next (answered s [0x02])) ∧
  ∀ opc a more rest s, reservedCode opc = true → operandFits a = true →
    s.host = .send (opc :: (u32be a.length ++ (a ++ more))) :: rest →
    step s = .next { s with host := if more = [] then rest else .send more :: rest, out := s.out ++ [[0x02]] }
end

