-- ==== Sys2Proof/Laws/State.lean ====
section
/-! SUPPORT. Reading a field after a named update of the state, one lemma each. -/

namespace Sys2Proof.Machine

@[simp] theorem respond_bl (s : State) (r : Bytes) : (s.respond r).bl = s.bl := rfl
@[simp] theorem respond_t8 (s : State) (r : Bytes) : (s.respond r).t8 = s.t8 := rfl
@[simp] theorem respond_cfg (s : State) (r : Bytes) : (s.respond r).cfg = s.cfg := rfl
@[simp] theorem respond_host (s : State) (r : Bytes) : (s.respond r).host = s.host := rfl
@[simp] theorem respond_out (s : State) (r : Bytes) : (s.respond r).out = s.out ++ [r] := rfl

@[simp] theorem withBacklog_bl (s : State) (bl : Bytes) : (s.withBacklog bl).bl = bl := rfl
@[simp] theorem withBacklog_t8 (s : State) (bl : Bytes) : (s.withBacklog bl).t8 = s.t8 := rfl
@[simp] theorem withBacklog_cfg (s : State) (bl : Bytes) : (s.withBacklog bl).cfg = s.cfg := rfl
@[simp] theorem withBacklog_host (s : State) (bl : Bytes) : (s.withBacklog bl).host = s.host := rfl
@[simp] theorem withBacklog_out (s : State) (bl : Bytes) : (s.withBacklog bl).out = s.out := rfl

@[simp] theorem applyReset_bl (s : State) : s.applyReset.bl = [] := rfl
@[simp] theorem applyReset_t8 (s : State) : s.applyReset.t8 = s.t8 := rfl
@[simp] theorem applyReset_cfg (s : State) : s.applyReset.cfg = s.cfg := rfl
@[simp] theorem applyReset_host (s : State) : s.applyReset.host = s.host := rfl
@[simp] theorem applyReset_out (s : State) : s.applyReset.out = s.out := rfl

@[simp] theorem issue_bl (s : State) (c : Bytes) : (s.issue c).bl = s.bl := rfl
@[simp] theorem issue_t8 (s : State) (c : Bytes) : (s.issue c).t8 = s.t8 := rfl
@[simp] theorem issue_cfg (s : State) (c : Bytes) : (s.issue c).cfg = s.cfg := rfl
@[simp] theorem issue_host (s : State) (c : Bytes) : (s.issue c).host = .send c :: s.host := rfl
@[simp] theorem issue_out (s : State) (c : Bytes) : (s.issue c).out = s.out := rfl

end Sys2Proof.Machine
end

