-- ==== Sys2Proof/Laws/Ops.lean ====
section
/-! SUPPORT. What the shared operations can do, said once: the two ends of an operation, taking the host's action, and
a step. -/

namespace Sys2Proof.Machine

open Sys2Proof.Spec

/-- `finish` answers OK and the result, and changes nothing else. -/
theorem finish_eq (r : Bytes) (s : State) : finish r s = .next (answered s (okResponse r)) := rfl

/-- `raise` answers the one status byte, and changes nothing else (R221). -/
theorem raise_eq (st : Status) (s : State) : raise st s = .next (answered s [statusCode st]) := rfl

@[simp] theorem statusCode_eq_zero (st : Status) : statusCode st = 0x00 ↔ st = .ok := by
  cases st <;> decide

/-- A command's last byte ends the sent string's turn; bytes after it stay to be sent. -/
theorem hostAfter_eq (more : Bytes) (rest : List HostAction) :
    hostAfter more rest = if more = [] then rest else .send more :: rest := by
  cases more <;> rfl

@[simp] theorem hostAfter_nil (rest : List HostAction) : hostAfter [] rest = rest := rfl

/-- Everything a step that answers a next state can be: a reset taken, or a command decoded and executed. -/
theorem step_cases {s t : State} (h : step s = .next t) :
    (∃ rest, s.host = .reset :: rest ∧ t = { s with bl := [], host := rest }) ∨
    (∃ bytes rest i more, s.host = .send bytes :: rest ∧ decode bytes = .ok (i, more) ∧
      exec i { s with host := hostAfter more rest } = .next t) := by
  unfold step fetch at h
  split at h <;> rename_i hf
  · cases h
  · split at hf <;> rename_i hh
    · cases hf
    · cases hf
      cases h
      exact .inl ⟨_, hh, rfl⟩
    · split at hf <;> cases hf
  · split at hf <;> rename_i hh
    · cases hf
    · cases hf
    · split at hf <;> rename_i hd
      · cases hf
      · cases hf
        exact .inr ⟨_, _, _, _, hh, hd, h⟩
  · cases h

/-- A step whose sent bytes decode is `exec` of the command, its bytes taken. -/
theorem step_command {s : State} {bytes more : Bytes} {rest : List HostAction} {i : Instr}
    (hh : s.host = .send bytes :: rest) (hd : decode bytes = .ok (i, more)) :
    step s = exec i { s with host := hostAfter more rest } := by
  simp [step, fetch, hh, hd]

/-- A step whose sent bytes do not decode is refused (R63). -/
theorem step_truncated {s : State} {bytes : Bytes} {rest : List HostAction}
    (hh : s.host = .send bytes :: rest) (hd : decode bytes = .error .truncatedCommand) :
    step s = .refused .truncatedCommand := by
  simp [step, fetch, hh, hd]

end Sys2Proof.Machine
end

