-- ==== Sys2Proof/Laws/Checksum.lean ====
section
/-! SUPPORT. The CRC folds over an appended string, the trailer, and everything a verify can do. -/

namespace Sys2Proof.Machine

open Sys2Proof.Spec

@[simp] theorem crc8_nil (t8 : Vector Byte 256) : Machine.crc8 t8 [] = 0x00 := rfl

theorem crc8_append (t8 : Vector Byte 256) (a b : Bytes) :
    Machine.crc8 t8 (a ++ b) = b.foldl (fun r b => readT8 t8 (r ^^^ b)) (Machine.crc8 t8 a) := by
  simp [Machine.crc8]

@[simp] theorem crc16_nil : Machine.crc16 [] = 0xFFFF := rfl

theorem crc16_append (a b : Bytes) : Machine.crc16 (a ++ b) = b.foldl crc16Byte (Machine.crc16 a) := by
  simp [Machine.crc16]

/-- A two-byte trailer stands at the end of what it covers. -/
theorem trailerMatches_append (mode : BitVec 16 → BitVec 16) (h : Bytes) (t0 t1 : Byte) :
    trailerMatches mode (h ++ [t0, t1]) =
      (((t0.setWidth 16 <<< 8) ||| t1.setWidth 16) == mode (Machine.crc16 h)) := by
  simp [trailerMatches, trailerValue]

/-- A string of at least two bytes is what a trailer covers, then the trailer. -/
theorem exists_trailer {f : Bytes} (h : 2 ≤ f.length) : ∃ b t0 t1, f = b ++ [t0, t1] := by
  have hd : (f.drop (f.length - 2)).length = 2 := by rw [List.length_drop]; omega
  match hf : f.drop (f.length - 2), hd with
  | [t0, t1], _ => exact ⟨f.take (f.length - 2), t0, t1, by rw [← hf, List.take_append_drop]⟩

/-- Everything a verify can do (R141, R144). -/
theorem verify_eq (mode : BitVec 16 → BitVec 16) (f : Bytes) (s : State) :
    verify mode f s = .next (answered s
      (if f.length < 2 then [0x03] else okResponse [validityByte (trailerMatches mode f)])) := by
  unfold verify
  split <;> rfl

end Sys2Proof.Machine
end

