-- ==== Sys2Proof/Laws/Decode.lean ====
section
/-! SUPPORT. Lengths and operands on the wire, and the operation map both ways. -/

namespace Sys2Proof

@[simp] theorem u32be_length (n : Nat) : (u32be n).length = 4 := rfl

/-- The four bytes of a length read back as that length. -/
theorem u32Value_u32be {n : Nat} (h : n ≤ maxOperandLen) :
    u32Value (BitVec.ofNat 8 (n / 0x1000000)) (BitVec.ofNat 8 (n / 0x10000)) (BitVec.ofNat 8 (n / 0x100))
      (BitVec.ofNat 8 n) = n := by
  simp only [u32Value, BitVec.toNat_ofNat, maxOperandLen] at *
  omega

/-- Four bytes are the u32 of their value. -/
theorem u32be_u32Value (b0 b1 b2 b3 : Byte) : u32be (u32Value b0 b1 b2 b3) = [b0, b1, b2, b3] := by
  have h0 := b0.isLt
  have h1 := b1.isLt
  have h2 := b2.isLt
  have h3 := b3.isLt
  simp only [u32be, u32Value, List.cons.injEq, and_true]
  refine ⟨?_, ?_, ?_, ?_⟩ <;> apply BitVec.eq_of_toNat_eq <;> rw [BitVec.toNat_ofNat] <;> omega

theorem u32Value_le (b0 b1 b2 b3 : Byte) : u32Value b0 b1 b2 b3 ≤ maxOperandLen := by
  have h0 := b0.isLt
  have h1 := b1.isLt
  have h2 := b2.isLt
  have h3 := b3.isLt
  simp only [u32Value, maxOperandLen]
  omega

/-- An operand put on the wire is read back, and the bytes after it are left. -/
theorem takeOperand_put {a : Bytes} (h : a.length ≤ maxOperandLen) (rest : Bytes) :
    takeOperand (putOperand a ++ rest) = some (a, rest) := by
  simp [putOperand, u32be, takeOperand, u32Value_u32be h]

/-- What an answer of `takeOperand` says of the bytes it read. -/
theorem takeOperand_some {bs a rest : Bytes} (h : takeOperand bs = some (a, rest)) :
    bs = putOperand a ++ rest ∧ a.length ≤ maxOperandLen := by
  match bs, h with
  | b0 :: b1 :: b2 :: b3 :: r, h =>
    rw [takeOperand] at h
    have hb := u32be_u32Value b0 b1 b2 b3
    have hle := u32Value_le b0 b1 b2 b3
    generalize u32Value b0 b1 b2 b3 = n at *
    simp only [Option.ite_none_right_eq_some, Option.some.injEq, Prod.mk.injEq] at h
    obtain ⟨hn, ha, hr⟩ := h
    subst ha hr
    have hl : (List.take n r).length = n := by rw [List.length_take]; omega
    refine ⟨?_, by rw [hl]; exact hle⟩
    rw [putOperand, hl, hb, List.append_assoc, List.take_append_drop]
    rfl

/-- The map reads each code as the operation whose code it is; 0x30 is HEX.ENC's and no format C1 code. -/
theorem ofOpcode_cases (opc : Byte) (a : Bytes) :
    (opc = 0x10 ∧ ofOpcode opc a = .crc8Cmp a) ∨ (opc = 0x11 ∧ ofOpcode opc a = .crc8Vfy a) ∨
    (opc = 0x20 ∧ ofOpcode opc a = .crc16Cmp a) ∨ (opc = 0x21 ∧ ofOpcode opc a = .crc16Vfy a) ∨
    (opc = 0x22 ∧ ofOpcode opc a = .crc16lCmp a) ∨ (opc = 0x23 ∧ ofOpcode opc a = .crc16lVfy a) ∨
    (opc = 0x31 ∧ ofOpcode opc a = .hexDec a) ∨ (opc = 0x32 ∧ ofOpcode opc a = .hexIshex a) ∨
    (opc = 0x40 ∧ ofOpcode opc a = .fxExt a) ∨ (opc = 0x50 ∧ ofOpcode opc a = .peProc a) ∨
    ((opc = 0x30 ∨ (reservedCode opc = true ∧ opc ≠ 0x11)) ∧ ofOpcode opc a = .reserved opc a) := by
  unfold ofOpcode
  split <;> rename_i h
  case h_11 =>
    have hlt := opc.isLt
    simp only [reservedCode, ne_eq, ← BitVec.toNat_inj, BitVec.ofNat_eq_ofNat, BitVec.toNat_ofNat]
    simp at *
    omega
  all_goals
    have hb : opc = BitVec.ofNat 8 opc.toNat := by simp
    rw [h] at hb
    subst hb
    simp

end Sys2Proof
end

