-- ==== Sys2Proof/Laws/Extractor.lean ====
section
/-! SUPPORT. The extractor's steps: resynchronization, the complete-frame test, and the loop without its pass count. -/

namespace Sys2Proof.Machine

open Sys2Proof.Spec

@[simp] theorem resync_nil : resync [] = [] := rfl

@[simp] theorem resync_sentinel (r : Bytes) : resync (sentinel :: r) = sentinel :: r := by simp [resync]

@[simp] theorem resync_other {b : Byte} (h : b ≠ sentinel) (r : Bytes) : resync (b :: r) = resync r := by
  simp [resync, h]

/-- One pass of R171's loop, in the primitives of R41. -/
theorem resync_pass (bl : Bytes) :
    resync bl = if blHead bl = none ∨ blHead bl = some sentinel then bl else resync (blDrop1 bl) := by
  cases bl with
  | nil => simp [blHead]
  | cons b r => by_cases h : b = sentinel <;> simp [blHead, blDrop1, resync, h]

/-- R171: what resynchronization drops, and where it stops. -/
theorem resync_spec (bl : Bytes) : Resynced bl (resync bl) := by
  induction bl with
  | nil => exact ⟨[], by simp⟩
  | cons b r ih =>
    by_cases h : b = sentinel
    · exact ⟨[], by simp [h]⟩
    · obtain ⟨d, hd, hn, hr⟩ := ih
      refine ⟨b :: d, by rw [resync_other h, List.cons_append, ← hd], ?_, by rwa [resync_other h]⟩
      simp [hn, Ne.symm h]

theorem resync_length_le (bl : Bytes) : (resync bl).length ≤ bl.length := by
  obtain ⟨d, hd, -⟩ := resync_spec bl
  have := congrArg List.length hd
  rw [List.length_append] at this
  omega

/-- Resynchronization has one outcome. -/
theorem resync_eq_of_resynced {bl r : Bytes} (h : Resynced bl r) : resync bl = r := by
  obtain ⟨d, rfl, hn, hr⟩ := h
  induction d with
  | nil =>
    rcases hr with rfl | hr
    · rfl
    · cases r with
      | nil => rfl
      | cons b r =>
        obtain rfl : b = sentinel := by simpa using hr
        simp
  | cons b d ih =>
    simp only [List.mem_cons, not_or] at hn
    rw [List.cons_append, resync_other (Ne.symm hn.1), ih hn.2]

/-- The complete-frame test on a head that has a length byte. -/
theorem completeFrame?_cons (h l : Byte) (t : Bytes) :
    completeFrame? (h :: l :: t) =
      if t.length + 2 < 4 ∨ t.length + 2 < 4 + l.toNat then none else some (4 + l.toNat) := by
  unfold completeFrame?
  by_cases h4 : t.length + 2 < 4
  · rw [if_pos (by simpa [minFrame] using h4), if_pos (.inl h4)]
  · rw [if_neg (by simpa [minFrame] using h4)]
    by_cases hn : t.length + 2 < 4 + l.toNat
    · rw [if_pos (.inr hn)]
      exact if_pos (by simpa [frameLength] using hn)
    · rw [if_neg (by omega)]
      exact if_neg (by simpa [frameLength] using hn)

/-- The complete-frame test fails exactly on an incomplete head (R172 steps 2b, 2d). -/
theorem completeFrame?_eq_none_iff (bl : Bytes) : completeFrame? bl = none ↔ Incomplete bl := by
  unfold Incomplete
  match bl with
  | [] => simp [completeFrame?, minFrame]
  | [_] => simp [completeFrame?, minFrame]
  | h :: l :: t =>
    rw [completeFrame?_cons]
    simp only [ite_eq_left_iff, reduceCtorEq, imp_false, not_not, List.length_cons]
    refine or_congr Iff.rfl ⟨fun hn => ⟨h, l, t, rfl, hn⟩, ?_⟩
    rintro ⟨_, _, _, e, hn⟩
    cases e
    exact hn

/-- What the complete-frame test answers is the length of the frame at the head (R172 step 2c). -/
theorem completeFrame?_eq_some {bl : Bytes} {n : Nat} (h : completeFrame? bl = some n) :
    ∃ b l t, bl = b :: l :: t ∧ n = 4 + l.toNat ∧ n ≤ bl.length := by
  match bl with
  | [] => simp [completeFrame?, minFrame] at h
  | [_] => simp [completeFrame?, minFrame] at h
  | b :: l :: t =>
    rw [completeFrame?_cons] at h
    split at h
    · cases h
    · rename_i hn
      obtain rfl : 4 + l.toNat = n := by simpa using h
      exact ⟨b, l, t, rfl, rfl, by simp only [List.length_cons]; omega⟩

/-- A resynchronized complete head is a frame, and at least four bytes go with it. -/
theorem isFrame_take {bl : Bytes} {n : Nat} (h : completeFrame? (resync bl) = some n) :
    IsFrame ((resync bl).take n) ∧ 4 ≤ n ∧ n ≤ (resync bl).length := by
  obtain ⟨b, l, t, hb, hn, hle⟩ := completeFrame?_eq_some h
  obtain ⟨d, -, -, hr⟩ := resync_spec bl
  rw [hb] at hr hle ⊢
  obtain rfl : b = sentinel := by simpa using hr
  refine ⟨⟨l, t.take (2 + l.toNat), ?_, ?_⟩, by omega, hle⟩
  · obtain ⟨m, rfl⟩ : ∃ m, n = m + 2 := ⟨2 + l.toNat, by omega⟩
    have : m = 2 + l.toNat := by omega
    simp [this]
  · simp at hle
    rw [List.length_take]
    omega

/-- More passes than R172's bound change nothing. -/
theorem drainPasses_enough (bl : Bytes) (k : Nat) (hk : bl.length / 4 + 1 ≤ k) :
    drainPasses k bl = drainPasses (bl.length / 4 + 1) bl := by
  induction k using Nat.strong_induction_on generalizing bl with
  | _ k ih =>
    obtain ⟨k, rfl⟩ : ∃ m, k = m + 1 := ⟨k - 1, by omega⟩
    rw [drainPasses, drainPasses]
    cases hc : completeFrame? (resync bl) with
    | none => rfl
    | some n =>
      obtain ⟨-, h4, hle⟩ := isFrame_take hc
      have hr := resync_length_le bl
      have hl : ((resync bl).drop n).length = (resync bl).length - n := List.length_drop
      simp only [blTake]
      rw [ih k (by omega) _ (by omega)]
      by_cases hq : bl.length / 4 + 1 ≤ k
      · rw [ih (bl.length / 4) (by omega) _ (by omega)]
      · obtain rfl : k = bl.length / 4 := by omega
        rw [ih (bl.length / 4) (by omega) _ (by omega)]

/-- The loop of R172 without its pass count. -/
theorem drain_eq (bl : Bytes) :
    drain bl = match completeFrame? (resync bl) with
      | none => ([], resync bl)
      | some n =>
        ((resync bl).take n :: (drain ((resync bl).drop n)).1, (drain ((resync bl).drop n)).2) := by
  rw [drain, drainPasses]
  cases hc : completeFrame? (resync bl) with
  | none => rfl
  | some n =>
    obtain ⟨-, h4, hle⟩ := isFrame_take hc
    have hr := resync_length_le bl
    have hl : ((resync bl).drop n).length = (resync bl).length - n := List.length_drop
    simp only [blTake, drain]
    rw [drainPasses_enough _ (bl.length / 4) (by omega)]

/-- The loop stops where no complete frame stands at the head. -/
theorem drain_stop {bl : Bytes} (h : completeFrame? (resync bl) = none) : drain bl = ([], resync bl) := by
  rw [drain_eq, h]

/-- The loop takes a frame and goes on. -/
theorem drain_take {bl : Bytes} {n : Nat} (h : completeFrame? (resync bl) = some n) :
    drain bl = ((resync bl).take n :: (drain ((resync bl).drop n)).1, (drain ((resync bl).drop n)).2) := by
  rw [drain_eq, h]

/-- Overflow is the negation of fitting (R170). -/
theorem overflows_eq_false_iff (s : State) (a : Bytes) : overflows s a = false ↔ Fits s a.length := by
  unfold overflows Fits
  cases s.cfg.backlogMax <;> simp

/-- Everything FX.EXT and PE.PROC can do (R174, R200). -/
theorem extract_eq (result : List Bytes → Bytes) (a : Bytes) (s : State) :
    extract result a s =
      if overflows s a then .next (answered s [0x04])
      else .next { s with
        bl := (drain (s.bl ++ a)).2, out := s.out ++ [okResponse (result (drain (s.bl ++ a)).1)] } := rfl

end Sys2Proof.Machine
end

