-- ==== Sys2Proof/Laws/Hex.lean ====
section
/-! SUPPORT. The hex codec's digits, text and lexer. -/

namespace Sys2Proof.Machine

open Sys2Proof.Spec

/-- A digit made by HEX.ENC reads back as its nibble (R101, R102). -/
@[simp] theorem hexVal?_hexDigit (n : Nibble) : hexVal? (hexDigit n) = some n := by
  revert n; decide

/-- Whitespace is no digit (R102). -/
theorem hexVal?_of_isWS {c : Byte} (h : isWS c = true) : hexVal? c = none := by
  revert c; decide

@[simp] theorem hexPair_length (b : Byte) : (hexPair b).length = 2 := rfl

/-- The result length of R100. -/
theorem hexText_length (sep a : Bytes) : (hexText sep a).length = hexTextLength a sep := by
  induction a with
  | nil => rfl
  | cons b r ih =>
    cases r with
    | nil => simp [hexText, hexTextLength]
    | cons c r =>
      simp only [hexTextLength, reduceCtorEq, ↓reduceIte, List.length_cons, Nat.add_one_sub_one] at ih ⊢
      simp only [hexText, List.length_append, hexPair_length, ih]
      ring

/-- The lexer's pass over a body in two parts. -/
theorem lexBody_append (t u : Bytes) :
    lexBody (t ++ u) = ((lexBody t).1 ++ (lexBody u).1, (lexBody t).2 || (lexBody u).2) := by
  induction t with
  | nil => simp [lexBody]
  | cons c t ih =>
    simp only [List.cons_append, lexBody, ih]
    cases hexVal? c with
    | some v => simp
    | none => by_cases hw : isWS c = true <;> simp [hw]

end Sys2Proof.Machine
end

