-- ==== Sys2Proof/Laws/PerInstr.lean ====
section
/-! SUPPORT. The per-operation family EncodedLength: the length of an operation's command (R60, R61). -/

namespace Sys2Proof.Laws.EncodedLength

/-- The length R61 gives a command: `5 + LA` in format C1, `9 + LA + LB` in format C2. -/
def commandLength : Instr → Nat
  | .hexEnc a b => 9 + a.length + b.length
  | .crc8Cmp a => 5 + a.length
  | .crc8Vfy a => 5 + a.length
  | .crc16Cmp a => 5 + a.length
  | .crc16Vfy a => 5 + a.length
  | .crc16lCmp a => 5 + a.length
  | .crc16lVfy a => 5 + a.length
  | .hexDec a => 5 + a.length
  | .hexIshex a => 5 + a.length
  | .fxExt a => 5 + a.length
  | .peProc a => 5 + a.length
  | .reserved _ a => 5 + a.length

/-- The encoder writes exactly the command's bytes. -/
def Statement (i : Instr) : Prop := (encode i).length = commandLength i

theorem putOperand_length (a : Bytes) : (putOperand a).length = 4 + a.length := by
  simp [putOperand]

theorem formatC1 (opc : Byte) (a : Bytes) : (opc :: putOperand a).length = 5 + a.length := by
  rw [List.length_cons, putOperand_length]; omega

theorem crc8Cmp (a : Bytes) : Statement (.crc8Cmp a) := formatC1 _ a
theorem crc8Vfy (a : Bytes) : Statement (.crc8Vfy a) := formatC1 _ a
theorem crc16Cmp (a : Bytes) : Statement (.crc16Cmp a) := formatC1 _ a
theorem crc16Vfy (f : Bytes) : Statement (.crc16Vfy f) := formatC1 _ f
theorem crc16lCmp (a : Bytes) : Statement (.crc16lCmp a) := formatC1 _ a
theorem crc16lVfy (f : Bytes) : Statement (.crc16lVfy f) := formatC1 _ f
theorem hexEnc (a b : Bytes) : Statement (.hexEnc a b) := by
  simp only [Statement, encode, commandLength, List.length_cons, List.length_append, putOperand_length]; omega
theorem hexDec (a : Bytes) : Statement (.hexDec a) := formatC1 _ a
theorem hexIshex (a : Bytes) : Statement (.hexIshex a) := formatC1 _ a
theorem fxExt (a : Bytes) : Statement (.fxExt a) := formatC1 _ a
theorem peProc (a : Bytes) : Statement (.peProc a) := formatC1 _ a
theorem reserved (opc : Byte) (a : Bytes) : Statement (.reserved opc a) := formatC1 opc a

end Sys2Proof.Laws.EncodedLength
end

