-- ==== Sys2Proof/Tests/Slice0.lean ====
section
/-! SUPPORT. Tests of the model against the spec's vectors (95_test_vectors.md), and for each statement with hypotheses
a state and operands that meet them. Every expected value is the spec's. -/

namespace Sys2Proof.Tests

open Sys2Proof.Machine Sys2Proof.Spec

-- the CRC tests run 8 rounds a byte inside decide
set_option maxRecDepth 4000

/-- A state with that backlog. -/
def withBL (bl : Bytes) : State := { State.reset with bl := bl }

/-- A state of a build with that bound, and that backlog. -/
def bounded (m : Nat) (bl : Bytes) : State := { withBL bl with cfg := { backlogMax := some m, hasCrc16Le := true } }

/-- A state of a build without the little-endian mode. -/
def noLe : State := { State.reset with cfg := { backlogMax := none, hasCrc16Le := false } }

/-- The responses and the backlog of an outcome. -/
def seen : Host.Outcome State Fault Refusal → Option (List Bytes × Bytes)
  | .next s => some (s.out, s.bl)
  | .fault _ => none
  | .refused _ => none

/-- Whether an outcome is the refusal of a truncated command. -/
def truncated : Host.Outcome State Fault Refusal → Bool
  | .refused .truncatedCommand => true
  | _ => false

/-- An outcome that is seen is a next state. -/
theorem next_of_seen {o : Host.Outcome State Fault Refusal} {x : List Bytes × Bytes} (h : seen o = some x) :
    ∃ t, o = .next t ∧ t.out = x.1 ∧ t.bl = x.2 := by
  cases o with
  | next t => exact ⟨t, rfl, by simp [seen] at h; simp [← h]⟩
  | fault r => cases h
  | refused r => cases h

/-! ## WellFormed: an ill-formed term for each check -/

theorem test_wf_long_operand (n : Nat) (h : maxOperandLen < n) :
    wellFormed (.crc8Cmp (List.replicate n 0)) = false := by
  simp [wellFormed, operandFits, h]

theorem test_wf_long_separator (n : Nat) (h : maxOperandLen < n) :
    wellFormed (.hexEnc [] (List.replicate n 0)) = false := by
  simp [wellFormed, operandFits, h]

theorem test_wf_implemented_code_is_not_reserved : wellFormed (.reserved 0x10 []) = false := by decide

theorem test_wf_verify_code_has_its_own_row : wellFormed (.reserved 0x11 []) = false := by decide

theorem test_wf_reserved : wellFormed (.reserved 0x24 [0x7F]) = true := by decide

/-! ## Decode: words written out from R60 and R64, one for each constructor -/

theorem test_decode_crc8Cmp : (decode [0x10, 0, 0, 0, 1, 0x01]).toOption = some (.crc8Cmp [0x01], []) := by decide

theorem test_decode_crc8Vfy : (decode [0x11, 0, 0, 0, 3, 0x7F, 0x00, 0x61]).toOption =
    some (.crc8Vfy [0x7F, 0x00, 0x61], []) := by decide

theorem test_decode_crc16Cmp : (decode [0x20, 0, 0, 0, 4, 0x7F, 0x02, 0xAB, 0xCD]).toOption =
    some (.crc16Cmp [0x7F, 0x02, 0xAB, 0xCD], []) := by decide

theorem test_decode_crc16Vfy : (decode [0x21, 0, 0, 0, 1, 0xAA]).toOption = some (.crc16Vfy [0xAA], []) := by decide

theorem test_decode_crc16lCmp : (decode [0x22, 0, 0, 0, 1, 0x31]).toOption = some (.crc16lCmp [0x31], []) := by decide

theorem test_decode_crc16lVfy : (decode [0x23, 0, 0, 0, 2, 0x5E, 0xB5]).toOption =
    some (.crc16lVfy [0x5E, 0xB5], []) := by decide

theorem test_decode_hexEnc : (decode [0x30, 0, 0, 0, 2, 0x7F, 0x0A, 0, 0, 0, 1, 0x20]).toOption =
    some (Instr.hexEncDefault [0x7F, 0x0A], []) := by decide

theorem test_decode_hexDec : (decode [0x31, 0, 0, 0, 4, 0x30, 0x78, 0x37, 0x66]).toOption =
    some (.hexDec [0x30, 0x78, 0x37, 0x66], []) := by decide

theorem test_decode_hexIshex : (decode [0x32, 0, 0, 0, 3, 0x37, 0x46, 0x30]).toOption =
    some (.hexIshex [0x37, 0x46, 0x30], []) := by decide

theorem test_decode_fxExt : (decode [0x40, 0, 0, 0, 5, 0x7F, 0x00, 0x05, 0x68, 0x7F, 0x50]).toOption =
    some (.fxExt [0x7F, 0x00, 0x05, 0x68, 0x7F], [0x50]) := by decide

theorem test_decode_peProc : (decode [0x50, 0, 0, 0, 0]).toOption = some (.peProc [], []) := by decide

-- RSV-2, RSV-3
theorem test_decode_reserved : (decode [0xFF, 0, 0, 0, 2, 0x7F, 0x00]).toOption =
    some (.reserved 0xFF [0x7F, 0x00], []) := by decide

-- A length of 0x100 is its third byte: one operand byte short of it is truncated (R60, R63).
theorem test_decode_length_is_big_endian :
    (decode ([0x10, 0, 0, 1, 0] ++ List.replicate 255 0)).toOption = none := by decide

theorem test_decode_truncated_header : (decode [0x50, 0, 0, 0]).toOption = none := by decide

theorem test_decode_truncated_separator : (decode [0x30, 0, 0, 0, 0, 0, 0, 0]).toOption = none := by decide

theorem test_table_word : decodeTableWord 8 0x23 = some (.crc16lVfy []) := by decide

theorem test_table_word_runs : seen (step (State.reset.withFetchWord 8 0x30)) = some ([[0, 0, 0, 0, 0]], []) := by decide

/-! ## Meanings -/

-- CRC8-V4, CRC8-V6
theorem test_crc8Cmp_ff : seen (exec (.crc8Cmp [0xFF]) State.reset) = some ([[0x00, 0xF3]], []) := by decide

theorem test_crc8Cmp_four : seen (exec (.crc8Cmp [0x7F, 0x02, 0xAB, 0xCD]) State.reset) = some ([[0x00, 0xD4]], []) := by
  decide

-- CRC8-V10
theorem test_crc8Vfy : seen (exec (.crc8Vfy [0x7F, 0x00, 0x61]) (withBL [0x7F])) = some ([[0x02]], [0x7F]) := by decide

-- CRC16-V7, CRC16-V9
theorem test_crc16Cmp_zero : seen (exec (.crc16Cmp [0xFF, 0xFF]) State.reset) = some ([[0x00, 0x00, 0x00]], []) := by decide

theorem test_crc16Cmp_header : seen (exec (.crc16Cmp [0x7F, 0x00]) State.reset) = some ([[0x00, 0x05, 0x68]], []) := by
  decide

-- CRC16-V11, CRC16-V16
theorem test_crc16Vfy_good : seen (exec (.crc16Vfy [0x7F, 0x02, 0xAB, 0xCD, 0xB5, 0x5E]) State.reset) =
    some ([[0x00, 0x01]], []) := by decide

theorem test_crc16Vfy_short : seen (exec (.crc16Vfy [0xAA]) State.reset) = some ([[0x03]], []) := by decide

-- CRC16-V18
theorem test_crc16lCmp : seen (exec (.crc16lCmp [0x7F, 0x02, 0xAB, 0xCD]) State.reset) =
    some ([[0x00, 0x5E, 0xB5]], []) := by decide

-- R65
theorem test_crc16lCmp_absent : seen (exec (.crc16lCmp [0x7F]) noLe) = some ([[0x02]], []) := by decide

-- CRC16-V21, CRC16-V22
theorem test_crc16lVfy_good : seen (exec (.crc16lVfy [0x7F, 0x02, 0xAB, 0xCD, 0x5E, 0xB5]) State.reset) =
    some ([[0x00, 0x01]], []) := by decide

theorem test_crc16lVfy_big_endian : seen (exec (.crc16lVfy [0x7F, 0x02, 0xAB, 0xCD, 0xB5, 0x5E]) State.reset) =
    some ([[0x00, 0x00]], []) := by decide

-- HX-E7, HX-E8
theorem test_hexEnc_separator : seen (exec (.hexEnc [0x7F, 0x0A, 0xFF] [0x2C, 0x20]) State.reset) =
    some ([[0x00, 0, 0, 0, 10, 0x37, 0x46, 0x2C, 0x20, 0x30, 0x41, 0x2C, 0x20, 0x46, 0x46]], []) := by decide

theorem test_hexEnc_one : seen (exec (.hexEnc [0xAB] [0x2D, 0x2D]) State.reset) =
    some ([[0x00, 0, 0, 0, 2, 0x41, 0x42]], []) := by decide

-- HX-D13, HX-D7
theorem test_hexDec_spaces : seen (exec (.hexDec [0x20, 0x20, 0x30, 0x78, 0x20, 0x37, 0x20, 0x46, 0x20, 0x20]) State.reset) =
    some ([[0x00, 0, 0, 0, 1, 0x7F]], []) := by decide

theorem test_hexDec_second_mark : seen (exec (.hexDec [0x30, 0x78, 0x37, 0x46, 0x20, 0x30, 0x78, 0x30, 0x41]) State.reset) =
    some ([[0x01]], []) := by decide

-- HX-I6, HX-I7
theorem test_hexIshex_second_mark :
    seen (exec (.hexIshex [0x30, 0x78, 0x37, 0x46, 0x20, 0x30, 0x78, 0x30, 0x41]) State.reset) =
      some ([[0x00, 0x00, 0, 0, 0, 5]], []) := by decide

theorem test_hexIshex_no_mark : seen (exec (.hexIshex [0x78, 0x79, 0x7A]) State.reset) =
    some ([[0x00, 0x00, 0, 0, 0, 0]], []) := by decide

-- FX-V7, FX-V12
theorem test_fxExt_garbage_frame_rest : seen (exec (.fxExt [0x00, 0x7F, 0x00, 0x05, 0x68, 0x7F]) State.reset) =
    some ([[0x00, 0, 0, 0, 1, 0x7F, 0x00, 0x05, 0x68]], [0x7F]) := by decide

theorem test_fxExt_overflow : seen (exec (.fxExt (List.replicate 259 0)) (bounded 259 [0x7F])) =
    some ([[0x04]], [0x7F]) := by decide

-- P5 (R263), and the second command of P2
theorem test_peProc_false_frame : seen (exec (.peProc [0x7F, 0x05, 0x7F, 0x00, 0x05, 0x68, 0x00, 0x00, 0x00]) State.reset) =
    some ([[0x00, 0, 0, 0, 1, 0x00, 0x7F, 0x05, 0x7F, 0x00, 0x05, 0x68, 0x00, 0x00, 0x00]], []) := by decide

theorem test_peProc_two_records : seen (exec (.peProc [0x7F, 0x00, 0x05, 0x68, 0x7F, 0x00, 0x00, 0x00]) State.reset) =
    some ([[0x00, 0, 0, 0, 2, 0x01, 0x7F, 0x00, 0x05, 0x68, 0x00, 0x7F, 0x00, 0x00, 0x00]], []) := by decide

-- RSV-3
theorem test_reserved : seen (exec (.reserved 0x41 [0x7F]) (withBL [0x7F, 0x01])) = some ([[0x02]], [0x7F, 0x01]) := by decide

-- R250, R251: a reset between commands
theorem test_reset_action : seen (step { withBL [0x7F, 0x02] with host := [.reset] }) = some ([], []) := by decide

theorem test_truncated : truncated (step (State.reset.issue [0x50, 0, 0, 0, 1])) = true := by decide

-- R69, R70
theorem test_assemble_default_separator :
    assemble (ascii ['H', 'E', 'X', '.', 'E', 'N', 'C', ' '] ++ [0x7B] ++ ascii ['7', 'F', ' ', '0', 'A'] ++ [0x7D]) =
      some [0x30, 0, 0, 0, 2, 0x7F, 0x0A, 0, 0, 0, 1, 0x20] := by decide

/-! ## Witnesses: for each statement with hypotheses, a state and operands that meet them all -/

/-- The frame of SRC-3 with no payload. -/
theorem isFrame_min : IsFrame [0x7F, 0x00, 0x05, 0x68] := ⟨0x00, [0x05, 0x68], rfl, rfl⟩

theorem test_inv_after_a_partial_frame : Spec.Inv (withBL [0x7F, 0x02, 0xAB]) :=
  ⟨by decide, rfl, rfl⟩

theorem witness_ResetActionEmptiesBacklog :
    ({ withBL [0x7F] with host := [.reset, .send [0x50]] } : State).host = .reset :: [.send [0x50]] := rfl

theorem witness_EveryStepKeepsInvariant :
    Spec.Inv (State.reset.issue [0x40, 0, 0, 0, 1, 0x7F]) ∧
      ∃ t, step (State.reset.issue [0x40, 0, 0, 0, 1, 0x7F]) = .next t ∧ t.out = [[0x00, 0, 0, 0, 0]] ∧ t.bl = [0x7F] :=
  ⟨⟨by decide, issue_t8 _ _, by decide⟩, next_of_seen (x := ([[0x00, 0, 0, 0, 0]], [0x7F])) (by decide)⟩

theorem witness_StepRunsTheDecodedCommand :
    (State.reset.issue [0x50, 0, 0, 0, 0, 0x10]).host = .send [0x50, 0, 0, 0, 0, 0x10] :: [] ∧
      decode [0x50, 0, 0, 0, 0, 0x10] = .ok (.peProc [], [0x10]) := ⟨rfl, rfl⟩

theorem witness_TruncatedCommandIsRefused_operand :
    (State.reset.issue [0x50, 0, 0, 0, 1]).host = .send [0x50, 0, 0, 0, 1] :: [] ∧
      announced? [0x50, 0, 0, 0, 1] = some 6 ∧
      ∀ n, announced? [0x50, 0, 0, 0, 1] = some n → [0x50#8, 0, 0, 0, 1].length < n :=
  ⟨rfl, rfl, by rintro n ⟨⟩; decide⟩

theorem witness_TruncatedCommandIsRefused_header :
    announced? [0x50, 0, 0, 0] = none ∧
      ∀ n, announced? [0x50, 0, 0, 0] = some n → [0x50#8, 0, 0, 0].length < n :=
  ⟨rfl, by rintro n ⟨⟩⟩

theorem witness_IdleHostHasNoStep : State.reset.host = [] := rfl

theorem witness_RunAnswersEveryCommand :
    ∀ i ∈ [Instr.fxExt [0x7F], .reserved 0x99 [], .hexEncDefault []], WellFormed i := by decide

theorem witness_InstancesAreIndependent :
    ∀ y : System, y = [withBL [0x7F], State.reset.issue [0x50, 0, 0, 0, 0]] → ∃ k : Fin y.length, ∃ s,
      step y[k] = .next s ∧ s.out = [[0x00, 0, 0, 0, 0]] ∧ s.bl = [] := by
  rintro y rfl
  exact ⟨⟨1, by simp⟩, next_of_seen (x := ([[0x00, 0, 0, 0, 0]], [])) (by decide)⟩

theorem witness_CommandLengthIsAnnounced :
    announced? [0x30, 0, 0, 0, 1, 0xAB, 0, 0, 0, 1, 0x20] = some 11 ∧
      11 ≤ [0x30#8, 0, 0, 0, 1, 0xAB, 0, 0, 0, 1, 0x20].length := ⟨rfl, by decide⟩

theorem witness_DecodeInvertsEncode : WellFormed (.hexEnc [0xAB] [0x2C, 0x20]) := by decide

theorem witness_DecodedBytesAreTheEncoding :
    decode [0x41, 0, 0, 0, 1, 0x7F, 0x99] = .ok (.reserved 0x41 [0x7F], [0x99]) := by rfl

theorem witness_OperationMapAsListed_named : (0x50, Instr.peProc) ∈ formatC1 ∧ operandFits [0x7F] = true :=
  ⟨by simp [formatC1], by decide⟩

/-- The edges of R65's ranges. -/
theorem witness_OperationMapAsListed_reserved :
    ∀ opc ∈ [0x00#8, 0x0F, 0x12, 0x1F, 0x24, 0x2F, 0x33, 0x3F, 0x41, 0x4F, 0x51, 0xFF], opc ∉ namedCodes := by decide

theorem witness_LengthFieldsReadBack : 4294967295 ≤ maxOperandLen := by decide

theorem witness_ErrorsLeaveNoTrace :
    (∃ t, exec (.crc16Vfy [0xAA]) State.reset = .next t ∧ t.out = State.reset.out ++ [0x03 :: []] ∧ t.bl = []) ∧
      (0x03#8) ≠ 0x00 := ⟨next_of_seen (x := ([[0x03]], [])) (by decide), by decide⟩

theorem witness_PureOperationsIgnoreBacklog :
    chunkOf (.crc8Cmp [0x01]) = none ∧ (withBL [0x7F]).t8 = State.reset.t8 ∧ (withBL [0x7F]).cfg = State.reset.cfg ∧
      (withBL [0x7F]).bl ≠ State.reset.bl := ⟨rfl, rfl, rfl, by decide⟩

theorem witness_CrcEightIsBitwise : State.reset.t8 = crc8Rom := rfl

theorem witness_CrcEightResidue : (withBL [0x7F, 0x01]).t8 = crc8Rom := rfl

theorem witness_CrcTableFollowsItsRule : 
    ∃ t, step (State.reset.issue [0x50, 0, 0, 0, 0]) = .next t ∧ t.out = [[0x00, 0, 0, 0, 0]] ∧ t.bl = [] :=
  next_of_seen (x := ([[0x00, 0, 0, 0, 0]], [])) (by decide)

/-- For LittleEndianCompute, LittleEndianVerify, ComputedTrailersVerify and SwappedTrailersFail. -/
theorem witness_LittleEndianCompute : State.reset.cfg.hasCrc16Le = true := rfl

/-- Each clause of the verifies at its boundary: one byte, and two (R141, R144; CRC16-V14). -/
theorem witness_LittleEndianVerify :
    State.reset.cfg.hasCrc16Le = true ∧ [0x31#8].length < 2 ∧ ¬ [0xFF#8, 0xFF].length < 2 ∧
      trailerValid [0xFF, 0xFF] = true := by decide

theorem witness_LittleEndianReservedWhenAbsent : noLe.cfg.hasCrc16Le = false := rfl

theorem witness_SingleBitErrorsAreDetected :
    [0x7F#8, 0x00, 0x05, 0x68][3]? = some 0x68 ∧ 7 < 8 ∧
      exec (.crc16Vfy [0x7F, 0x00, 0x05, 0x68]) State.reset = .next (answered State.reset (okResponse [0x01])) :=
  ⟨rfl, by decide, by
    simp only [exec, execCrc16Vfy]
    rw [verify_eq, if_neg (by decide), show trailerMatches id [0x7F, 0x00, 0x05, 0x68] = true by decide]
    simp [validityByte]⟩

theorem witness_SwappedTrailersFail : Spec.crc16 [] / 256 = Spec.crc16 [] % 256 ∧
    Spec.crc16 [0x7F, 0x00] / 256 ≠ Spec.crc16 [0x7F, 0x00] % 256 := by decide

/-- Both clauses of HexEncode where they meet: a text of 2^32 - 1 bytes, and one byte more. -/
theorem witness_HexEncode :
    hexTextLength [0x00, 0x00] (List.replicate 4294967291 0x20) = 4294967295 ∧
      hexTextLength [0x00, 0x00] (List.replicate 4294967292 0x20) = 4294967296 := by
  simp only [hexTextLength, List.length_replicate]
  decide

theorem witness_HexRoundTrip :
    [0x7F#8, 0x0A] ≠ [] ∧ (∀ c ∈ [0x09#8, 0x20], c ∈ whitespace) ∧
      hexTextLength [0x7F, 0x0A] [0x09, 0x20] ≤ 4294967295 := by
  decide

/-- HX-D13: the body of a text with spaces before the mark, and after it. -/
theorem witness_Body : Body [0x20, 0x30, 0x78, 0x20, 0x37, 0x46] [0x20, 0x37, 0x46] :=
  ⟨[0x20], [0x30, 0x78, 0x20, 0x37, 0x46], rfl, by decide, by decide, .inl ⟨0x78, rfl, .inl rfl⟩⟩

/-- A chunk that fills a finite `BACKLOG_MAX` exactly fits (FX-V13's build), as any does in an unbounded build. Also for
ProcessReportsRecords, AnsweredFramesAreWhole and StreamingLeavesAnIncompleteFrame. -/
theorem witness_ExtractFollowsTheLoop :
    Fits (bounded 259 [0x7F]) (List.replicate 258 (0 : Byte)).length ∧ Fits State.reset 4294967295 := by
  refine ⟨?_, ?_⟩
  · rintro m ⟨⟩
    simp [bounded, withBL]
  · rintro m ⟨⟩

/-- FX-V4, FX-V5: the loop's relation holds of a frame completed by the last byte. -/
theorem witness_Drains : Drains ([0x7F, 0x00, 0x05] ++ [0x68]) [[0x7F, 0x00, 0x05, 0x68]] [] :=
  .take (rest := []) ⟨[], rfl, by decide, .inr rfl⟩ isFrame_min (.stop ⟨[], rfl, by decide, .inl rfl⟩ (.inl (by decide)))

/-- One byte more does not fit (FX-V12): the other clause of ExtractFollowsTheLoop and ProcessReportsRecords. -/
theorem witness_ExtractFollowsTheLoop_overflow :
    ¬ Fits (bounded 259 [0x7F]) (List.replicate 259 (0 : Byte)).length := by
  intro h
  have := h 259 rfl
  simp [bounded, withBL] at this

/-- The byte that completes FX-V5's frame fits, and the list of that frame has a response to be split. -/
theorem witness_ResponsesSplitOneWay :
    Fits (bounded 259 [0x7F, 0x00, 0x05]) [0x68#8].length ∧ ∀ f ∈ [[0x7F#8, 0x00, 0x05, 0x68]], IsFrame f := by
  refine ⟨?_, by simpa using isFrame_min⟩
  rintro m ⟨⟩
  simp [bounded, withBL]

theorem witness_EmptyChunkYieldsNothing : Spec.Inv (bounded 259 [0x7F, 0x00, 0x05]) := ⟨by decide, rfl, rfl⟩

/-- P6's chunks: FX.EXT, then PE.PROC. -/
def p6 : List (Bool × Bytes) := [(false, [0x7F, 0x00, 0x05, 0x68, 0x7F]), (true, [0x00, 0x05, 0x68])]

/-- Chunks of 129 and 130 bytes, which meet a bound of 259 to the byte. -/
def fullBound : List (Bool × Bytes) := [(false, List.replicate 129 0), (true, List.replicate 130 0)]

/-- Both forms of R177: an unbounded backlog, and a finite bound that no step passes, met to the byte. -/
theorem witness_FragmentationInvariance :
    (p6 ≠ [] ∧ Fits State.reset (p6.map Prod.snd).flatten.length) ∧
      (fullBound ≠ [] ∧ Fits (bounded 259 []) (fullBound.map Prod.snd).flatten.length) := by
  refine ⟨⟨by decide, ?_⟩, by simp [fullBound], ?_⟩
  · rintro m ⟨⟩
  · rintro m ⟨⟩
    simp [bounded, withBL, fullBound]

theorem witness_AllWholeFramesComeOut :
    State.reset.bl = [] ∧
      (∀ p ∈ [([0x00#8, 0x11], [0x7F#8, 0x00, 0x05, 0x68])], sentinel ∉ p.1 ∧ IsFrame p.2) ∧ sentinel ∉ [0x55#8] ∧
      Fits State.reset ([([0x00#8, 0x11], [0x7F#8, 0x00, 0x05, 0x68])].map (fun p => p.1 ++ p.2)).flatten.length :=
  ⟨rfl, by simpa using ⟨by decide, isFrame_min⟩, by decide, by rintro m ⟨⟩⟩

theorem witness_HostBuiltFramesAreValid :
    (List.replicate 255 (0 : Byte)).length ≤ 255 ∧ (bounded 259 []).bl = [] ∧ (bounded 259 []).cfg.legal = true :=
  ⟨by simp, rfl, rfl⟩

theorem witness_ReservedCommandIsConsumedWhole :
    reservedCode 0x41 = true ∧ operandFits [0x7F] = true ∧
      (State.reset.issue (0x41 :: (u32be [0x7F#8].length ++ ([0x7F] ++ [0x50])))).host =
        .send (0x41 :: (u32be [0x7F#8].length ++ ([0x7F] ++ [0x50]))) :: [] := ⟨by decide, by decide, rfl⟩

end Sys2Proof.Tests
end

/-! What an operation and a step can do to the state: `BL` (R21) and `T8` (R23). -/

namespace Sys2Proof.Proofs

open Sys2Proof.Machine Sys2Proof.Spec

@[simp] theorem answered_bl (s : State) (r : Bytes) : (answered s r).bl = s.bl := rfl
@[simp] theorem answered_t8 (s : State) (r : Bytes) : (answered s r).t8 = s.t8 := rfl
@[simp] theorem answered_cfg (s : State) (r : Bytes) : (answered s r).cfg = s.cfg := rfl
@[simp] theorem answered_host (s : State) (r : Bytes) : (answered s r).host = s.host := rfl
@[simp] theorem answered_out (s : State) (r : Bytes) : (answered s r).out = s.out ++ [r] := rfl

/-- Resynchronization only removes bytes from the head (R171). -/
theorem resync_suffix (bl : Bytes) : resync bl <:+ bl := by
  obtain ⟨dropped, hbl, -, -⟩ := resync_spec bl
  exact ⟨dropped, hbl.symm⟩

theorem drainPasses_suffix (fuel : Nat) (bl : Bytes) : (drainPasses fuel bl).2 <:+ bl := by
  induction fuel generalizing bl with
  | zero => exact List.suffix_rfl
  | succ fuel ih =>
    rw [drainPasses]
    cases completeFrame? (resync bl) with
    | none => exact resync_suffix bl
    | some n => exact (ih _).trans ((List.drop_suffix n _).trans (resync_suffix bl))

/-- The loop of R172 only removes bytes from the head. -/
theorem drain_suffix (bl : Bytes) : (drain bl).2 <:+ bl := drainPasses_suffix _ bl

/-- The three ways an operation ends: a result with no state written, an error with no state written (R221), or a
result after its chunk was appended and drained (R174). -/
def Ends (i : Instr) (s : State) (o : Host.Outcome State Fault Refusal) : Prop :=
  (∃ r, o = .next (answered s (okResponse r))) ∨
  (∃ st, st ≠ .ok ∧ o = .next (answered s [statusCode st])) ∨
  (∃ a r, chunkOf i = some a ∧ overflows s a = false ∧
    o = .next (answered (s.withBacklog (drain (s.bl ++ a)).2) (okResponse r)))

section Operations

variable {i : Instr} {s t : State}

theorem ends_finish (r : Bytes) : Ends i s (finish r s) := .inl ⟨r, finish_eq r s⟩

theorem ends_raise {st : Status} (h : st ≠ .ok) : Ends i s (raise st s) := .inr (.inl ⟨st, h, raise_eq st s⟩)

/-- An operation of two branches ends as its branches do. -/
theorem ends_ite {p : Prop} [Decidable p] {o o' : Host.Outcome State Fault Refusal} (h : Ends i s o)
    (h' : Ends i s o') : Ends i s (if p then o else o') := by
  split
  · exact h
  · exact h'

theorem ends_verify (mode : BitVec 16 → BitVec 16) (f : Bytes) : Ends i s (verify mode f s) :=
  ends_ite (ends_raise nofun) (ends_finish _)

theorem ends_extract (result : List Bytes → Bytes) {a : Bytes} (h : chunkOf i = some a) :
    Ends i s (extract result a s) := by
  cases ho : overflows s a with
  | true => exact .inr (.inl ⟨.backlogOverflow, nofun, by rw [extract_eq, if_pos ho]; rfl⟩)
  | false => exact .inr (.inr ⟨a, _, h, ho, by rw [extract_eq, if_neg (by simp [ho])]; rfl⟩)

/-- Everything an operation can do, on every operand and in every state. -/
theorem ends_exec (i : Instr) (s : State) : Ends i s (exec i s) := by
  cases i with
  | crc8Cmp a => exact ends_finish _
  | crc8Vfy a => exact ends_raise nofun
  | crc16Cmp a => exact ends_finish _
  | crc16Vfy f => exact ends_verify id f
  | crc16lCmp a => exact ends_ite (ends_finish _) (ends_raise nofun)
  | crc16lVfy f => exact ends_ite (ends_verify byteSwap f) (ends_raise nofun)
  | hexEnc a b => exact ends_ite (ends_raise nofun) (ends_finish _)
  | hexDec a => exact ends_ite (ends_finish _) (ends_raise nofun)
  | hexIshex a => exact ends_finish _
  | fxExt a => exact ends_extract (i := .fxExt a) framesResult rfl
  | peProc a => exact ends_extract (i := .peProc a) (fun fs => recordsResult (fs.map engineRecord)) rfl
  | reserved opc a => exact ends_raise nofun

/-- No operation writes `T8` (R23). -/
theorem exec_t8 (h : exec i s = .next t) : t.t8 = s.t8 := by
  obtain ⟨r, he⟩ | ⟨st, -, he⟩ | ⟨a, r, -, -, he⟩ := ends_exec i s
  all_goals
    cases h.symm.trans he
    simp

/-- No step writes `T8` (R23). -/
theorem step_t8 (h : step s = .next t) : t.t8 = s.t8 := by
  obtain ⟨rest, -, rfl⟩ | ⟨bytes, rest, i, more, -, -, he⟩ := step_cases h
  · rfl
  · exact (exec_t8 he :)

end Operations

/-- R24's contents, entry by entry against R23's rule: the listing is literal data, so each entry is evaluated. -/
theorem readT8_crc8Rom (i : Byte) : (readT8 crc8Rom i).toNat = Nat.repeat Spec.crc8Round 8 i.toNat := by
  revert i
  decide

/-- Settles O23: an operation that writes `BL` leaves what the loop leaves of `BL ++ chunk`, and the loop only removes
bytes from the head. -/
theorem backlogChangesOnlyAtItsEnds : Obligations.BacklogChangesOnlyAtItsEnds := by
  intro i s
  obtain ⟨r, he⟩ | ⟨st, -, he⟩ | ⟨a, r, ha, -, he⟩ := ends_exec i s
  · exact ⟨_, he, .inl (answered_bl s _)⟩
  · exact ⟨_, he, .inl (answered_bl s _)⟩
  · exact ⟨_, he, .inr ⟨a, ha, drain_suffix (s.bl ++ a)⟩⟩

/-- Settles O24: the ROM's entries evaluated, and the frame of a step for `T8`. -/
theorem crcTableFollowsItsRule : Obligations.CrcTableFollowsItsRule :=
  ⟨readT8_crc8Rom, fun _ _ => step_t8⟩

end Sys2Proof.Proofs

/-! The command format (R60, R61): what `decode` reads from each of the two layouts, that it reads no other, and that
the announced length is the layout's. -/

namespace Sys2Proof.Proofs

open Sys2Proof.Machine Sys2Proof.Spec

section Layouts

variable {bs bytes a b more : Bytes} {opc : Byte} {i : Instr} {n : Nat}

@[simp] theorem operandFits_iff : operandFits a = true ↔ a.length ≤ maxOperandLen := by simp [operandFits]

theorem putOperand_append (a more : Bytes) : putOperand a ++ more = u32be a.length ++ (a ++ more) := by
  rw [putOperand, List.append_assoc]

/-- Format C1 decodes by the operation map (R61, R64). -/
theorem decode_formatC1 (hopc : opc ≠ 0x30) (ha : a.length ≤ maxOperandLen) (more : Bytes) :
    decode (opc :: (putOperand a ++ more)) = .ok (ofOpcode opc a, more) := by
  simp only [decode, takeOperand_put ha, if_neg hopc]

/-- Format C2 decodes to HEX.ENC (R61). -/
theorem decode_formatC2 (ha : a.length ≤ maxOperandLen) (hb : b.length ≤ maxOperandLen) (more : Bytes) :
    decode (0x30 :: (putOperand a ++ (putOperand b ++ more))) = .ok (.hexEnc a b, more) := by
  simp [decode, takeOperand_put ha, takeOperand_put hb]

/-- Bytes that decode are laid out in format C1 or in format C2. -/
theorem decode_cases (h : decode bytes = .ok (i, more)) :
    (∃ opc a, opc ≠ 0x30 ∧ a.length ≤ maxOperandLen ∧ bytes = opc :: (putOperand a ++ more) ∧ i = ofOpcode opc a) ∨
    (∃ a b, a.length ≤ maxOperandLen ∧ b.length ≤ maxOperandLen ∧
      bytes = 0x30 :: (putOperand a ++ (putOperand b ++ more)) ∧ i = .hexEnc a b) := by
  unfold decode at h
  split at h
  · cases h
  · split at h <;> rename_i hta
    · cases h
    · obtain ⟨rfl, ha⟩ := takeOperand_some hta
      split at h <;> rename_i hopc
      · split at h <;> rename_i htb
        · cases h
        · obtain ⟨rfl, hb⟩ := takeOperand_some htb
          cases h
          exact .inr ⟨_, _, ha, hb, by rw [hopc], rfl⟩
      · cases h
        exact .inl ⟨_, _, hopc, ha, rfl, rfl⟩

/-- The length field of an operand on the wire reads as the operand's length. -/
theorem u32At_putOperand (ha : a.length ≤ maxOperandLen) (more : Bytes) :
    u32At (putOperand a ++ more) 0 = some a.length :=
  congrArg some (u32Value_u32be ha)

/-- A length field with that many bytes after it is an operand on the wire. -/
theorem exists_operand (h : u32At bs 0 = some n) (hn : 4 + n ≤ bs.length) :
    ∃ a more, bs = putOperand a ++ more ∧ a.length = n ∧ a.length ≤ maxOperandLen := by
  match bs, h with
  | b0 :: b1 :: b2 :: b3 :: r, h =>
    have hv : u32Value b0 b1 b2 b3 = n := Option.some.inj h
    have hr : n ≤ r.length := by simp at hn; omega
    obtain ⟨hbs, ha⟩ := takeOperand_some (bs := b0 :: b1 :: b2 :: b3 :: r) (a := r.take n) (rest := r.drop n)
      (by simp [takeOperand, hv, hr])
    exact ⟨_, _, hbs, by simpa using hr, ha⟩

/-- R61's length, read off the operation code and the length fields that follow it. -/
theorem announced?_cons (opc : Byte) (bs : Bytes) :
    announced? (opc :: bs) = (u32At bs 0).bind fun la =>
      if opc = 0x30 then (u32At (bs.drop (4 + la)) 0).map fun lb => 9 + la + lb else some (5 + la) := by
  have hoff (la : Nat) : u32At (opc :: bs) (5 + la) = u32At (bs.drop (4 + la)) 0 := by
    simp [u32At, show 5 + la = 4 + la + 1 by omega]
  have hhead : u32At (opc :: bs) 1 = u32At bs 0 := rfl
  unfold announced?
  rw [hhead]
  cases u32At bs 0 with
  | none => rfl
  | some la =>
    simp only [hoff, List.head?_cons, Option.some.injEq, Option.bind_some]
    split
    · cases u32At (bs.drop (4 + la)) 0 <;> rfl
    · rfl

theorem announced?_formatC1 (hopc : opc ≠ 0x30) (ha : a.length ≤ maxOperandLen) (more : Bytes) :
    announced? (opc :: (putOperand a ++ more)) = some (5 + a.length) := by
  rw [announced?_cons, u32At_putOperand ha, Option.bind_some, if_neg hopc]

theorem announced?_formatC2 (ha : a.length ≤ maxOperandLen) (hb : b.length ≤ maxOperandLen) (more : Bytes) :
    announced? (0x30 :: (putOperand a ++ (putOperand b ++ more))) = some (9 + a.length + b.length) := by
  have hdrop : (putOperand a ++ (putOperand b ++ more)).drop (4 + a.length) = putOperand b ++ more :=
    List.drop_left' (Laws.EncodedLength.putOperand_length a)
  simp [announced?_cons, u32At_putOperand ha, hdrop, u32At_putOperand hb]

/-- Bytes that hold the length their header announces are laid out in format C1 or in format C2. -/
theorem announced?_cases (h : announced? bytes = some n) (hn : n ≤ bytes.length) :
    (∃ opc a more, opc ≠ 0x30 ∧ a.length ≤ maxOperandLen ∧ bytes = opc :: (putOperand a ++ more)) ∨
    (∃ a b more, a.length ≤ maxOperandLen ∧ b.length ≤ maxOperandLen ∧
      bytes = 0x30 :: (putOperand a ++ (putOperand b ++ more))) := by
  cases bytes with
  | nil => cases h
  | cons opc bs =>
    rw [announced?_cons, Option.bind_eq_some_iff] at h
    rw [List.length_cons] at hn
    obtain ⟨la, hla, h⟩ := h
    split at h <;> rename_i hopc
    · obtain ⟨lb, hlb, rfl⟩ := Option.map_eq_some_iff.1 h
      obtain ⟨a, rest, rfl, rfl, ha⟩ := exists_operand hla (by omega)
      rw [List.drop_left' (Laws.EncodedLength.putOperand_length a)] at hlb
      rw [List.length_append, Laws.EncodedLength.putOperand_length] at hn
      obtain ⟨b, more, rfl, -, hb⟩ := exists_operand hlb (by omega)
      exact .inr ⟨a, b, more, ha, hb, by rw [hopc]⟩
    · cases h
      obtain ⟨a, more, rfl, -, ha⟩ := exists_operand hla (by omega)
      exact .inl ⟨opc, a, more, hopc, ha, rfl⟩

/-- The bytes a command takes are those its header announces (R61). -/
theorem announced?_of_decode (h : decode bytes = .ok (i, more)) :
    ∃ taken, bytes = taken ++ more ∧ announced? bytes = some taken.length := by
  obtain ⟨opc, a, hopc, ha, rfl, -⟩ | ⟨a, b, ha, hb, rfl, -⟩ := decode_cases h
  · refine ⟨opc :: putOperand a, rfl, ?_⟩
    rw [announced?_formatC1 hopc ha, Laws.EncodedLength.formatC1]
  · refine ⟨0x30 :: (putOperand a ++ putOperand b), by simp, ?_⟩
    rw [announced?_formatC2 ha hb]
    exact congrArg some (Laws.EncodedLength.hexEnc a b).symm

/-- The operation map answers well-formed commands (R64, R65). -/
theorem wellFormed_ofOpcode (hopc : opc ≠ 0x30) (ha : a.length ≤ maxOperandLen) : WellFormed (ofOpcode opc a) := by
  rcases ofOpcode_cases opc a with h | h | h | h | h | h | h | h | h | h | ⟨h, hi⟩
  pick_goal 11
  · obtain ⟨hres, h11⟩ := h.resolve_left hopc
    rw [hi]
    exact Bool.and_eq_true_iff.2 ⟨Bool.and_eq_true_iff.2 ⟨operandFits_iff.2 ha, hres⟩, bne_iff_ne.2 h11⟩
  all_goals
    rw [h.2]
    exact operandFits_iff.2 ha

/-- The operation map on the codes of format C1 (R64). -/
theorem ofOpcode_formatC1 : ∀ p ∈ formatC1, p.1 ≠ 0x30 ∧ ∀ a, ofOpcode p.1 a = p.2 a := by
  simp [formatC1, ofOpcode]

/-- The operation map on the codes with no row of their own (R65). -/
theorem ofOpcode_unnamed (h : opc ∉ namedCodes) (a : Bytes) : ofOpcode opc a = .reserved opc a := by
  rcases ofOpcode_cases opc a with h' | h' | h' | h' | h' | h' | h' | h' | h' | h' | h'
  pick_goal 11
  · exact h'.2
  all_goals exact absurd (h'.1 ▸ by decide) h

end Layouts

/-- Settles O6: a command that decodes takes the announced bytes, so bytes shorter than that do not decode. -/
theorem truncatedCommandIsRefused : Obligations.TruncatedCommandIsRefused := by
  intro s bytes rest hhost hshort
  refine step_truncated hhost ?_
  cases h : decode bytes with
  | error e => rfl
  | ok r =>
    obtain ⟨taken, rfl, hn⟩ := announced?_of_decode h
    have hlt := hshort _ hn
    rw [List.length_append] at hlt
    omega

/-- Settles O10: bytes of the announced length are one of the two layouts, which decode, and a command takes the
announced bytes. -/
theorem commandLengthIsAnnounced : Obligations.CommandLengthIsAnnounced := by
  intro bytes n hn hle
  have hdec : ∃ i more, decode bytes = .ok (i, more) ∧ WellFormed i := by
    obtain ⟨opc, a, more, hopc, ha, rfl⟩ | ⟨a, b, more, ha, hb, rfl⟩ := announced?_cases hn hle
    · exact ⟨_, more, decode_formatC1 hopc ha more, wellFormed_ofOpcode hopc ha⟩
    · exact ⟨_, more, decode_formatC2 ha hb more, by simp [WellFormed, wellFormed, ha, hb]⟩
  obtain ⟨i, more, hi, hwf⟩ := hdec
  obtain ⟨taken, rfl, ht⟩ := announced?_of_decode hi
  cases hn.symm.trans ht
  exact ⟨i, by rw [List.drop_left]; exact hi, hwf⟩

/-- Settles O13: the two layouts decode by the operation map, and the map is read code by code. -/
theorem operationMapAsListed : Obligations.OperationMapAsListed := by
  refine ⟨fun p hp a more ha => ?_, fun a b more ha hb => ?_, fun opc a more hopc ha => ?_⟩
  · obtain ⟨hne, hmap⟩ := ofOpcode_formatC1 p hp
    rw [← putOperand_append, decode_formatC1 hne (operandFits_iff.1 ha), hmap]
  · rw [← putOperand_append b, ← putOperand_append a]
    exact decode_formatC2 (operandFits_iff.1 ha) (operandFits_iff.1 hb) more
  · have hne : opc ≠ 0x30 := fun h => hopc (h ▸ by decide)
    rw [← putOperand_append, decode_formatC1 hne (operandFits_iff.1 ha), ofOpcode_unnamed hopc]

end Sys2Proof.Proofs

/-! The hex codec (R100 to R104): the text of HEX.ENC place by place, the lexer's pass as the digits and the bad bytes
of the body, and HEX.DEC's bytes from the digits. -/

namespace Sys2Proof.Proofs

open Sys2Proof.Machine Sys2Proof.Spec

/-! What each operation answers. -/

/-- Everything HEX.ENC can do (R100). -/
theorem exec_hexEnc (a b : Bytes) (s : State) :
    exec (.hexEnc a b) s = .next (answered s
      (if hexTextLength a b ≤ 4294967295 then okResponse (countedBytes (hexText b a)) else [0x05])) := by
  rw [← hexText_length]
  change (if (hexText b a).length > 4294967295 then _ else _) = _
  split
  · rw [if_neg (by omega)]; rfl
  · rw [if_pos (by omega)]; rfl

/-- Everything HEX.ISHEX can do (R103). -/
theorem exec_hexIshex (a : Bytes) (s : State) :
    exec (.hexIshex a) s = .next (answered s (okResponse (isHexResult (lexValid (lex a)) (lex a).1.length))) := rfl

/-- Everything HEX.DEC can do (R104). -/
theorem exec_hexDec (a : Bytes) (s : State) :
    exec (.hexDec a) s = .next (answered s
      (if lexValid (lex a) then okResponse (countedBytes (pairDigits (lex a).1)) else [0x01])) := by
  change (if lexValid (lex a) = true then _ else _) = _
  split <;> rfl

/-! The text of HEX.ENC. -/

/-- A nibble's digit stands at its value in the digit list (R101). -/
theorem upperDigits_getElem? (n : Nibble) : upperDigits[n.toNat]? = some (hexDigit n) := by
  revert n
  decide

/-- The pair of a byte is the digits of its two halves (R100, R101). -/
theorem hexPair_getElem? (c : Byte) :
    (hexPair c)[0]? = upperDigits[c.toNat / 16]? ∧ (hexPair c)[1]? = upperDigits[c.toNat % 16]? := by
  have hhigh : (c.extractLsb' 4 4).toNat = c.toNat / 16 := by
    have hc := c.isLt
    rw [BitVec.extractLsb'_toNat, Nat.shiftRight_eq_div_pow]
    omega
  have hlow : (c.extractLsb' 0 4).toNat = c.toNat % 16 := by simp [BitVec.extractLsb'_toNat]
  rw [← hhigh, ← hlow, upperDigits_getElem?, upperDigits_getElem?]
  exact ⟨rfl, rfl⟩

/-- The text of a string: its first byte's pair, then the separator and the text of the rest, if there is a rest. -/
theorem hexText_cons (sep : Bytes) (c : Byte) (r : Bytes) :
    hexText sep (c :: r) = hexPair c ++ if r = [] then [] else sep ++ hexText sep r := by
  cases r <;> simp [hexText]

/-- The text opens with the first byte's pair. -/
theorem hexText_cons_getElem?_of_lt (sep : Bytes) (c : Byte) (r : Bytes) {i : Nat} (hi : i < 2) :
    (hexText sep (c :: r))[i]? = (hexPair c)[i]? := by
  rw [hexText_cons, List.getElem?_append_left (by simpa using hi)]

/-- The separator stands after the first byte's pair, unless that byte is the last. -/
theorem hexText_cons_getElem?_separator {sep r : Bytes} (c : Byte) {j : Nat} (hr : r ≠ []) (hj : j < sep.length) :
    (hexText sep (c :: r))[2 + j]? = sep[j]? := by
  rw [hexText_cons, if_neg hr, List.getElem?_append_right (by simp), hexPair_length, Nat.add_sub_cancel_left,
    List.getElem?_append_left hj]

/-- The text of the rest stands after the first pair and the separator. -/
theorem hexText_cons_getElem?_rest {sep r : Bytes} (c : Byte) (i : Nat) (hr : r ≠ []) :
    (hexText sep (c :: r))[2 + sep.length + i]? = (hexText sep r)[i]? := by
  rw [hexText_cons, if_neg hr, ← List.append_assoc, List.getElem?_append_right (by simp)]
  simp

/-- The bytes of HEX.ENC's text (R100, R101). -/
theorem isHexText_hexText (a b : Bytes) : IsHexText a b (hexText b a) := by
  refine ⟨hexText_length b a, ?_⟩
  induction a with
  | nil => simp
  | cons c r ih =>
    rintro (_ | k) d hd
    · obtain rfl : c = d := by simpa using hd
      obtain ⟨hhigh, hlow⟩ := hexPair_getElem? c
      rw [Nat.zero_mul, Nat.zero_add, Nat.zero_add, hexText_cons_getElem?_of_lt _ _ _ Nat.zero_lt_two,
        hexText_cons_getElem?_of_lt _ _ _ Nat.one_lt_two]
      refine ⟨hhigh, hlow, fun j hj hlast => hexText_cons_getElem?_separator c ?_ hj⟩
      rintro rfl
      simp at hlast
    · have hr : r ≠ [] := by
        rintro rfl
        simp at hd
      obtain ⟨hhigh, hlow, hsep⟩ := ih k d hd
      have hplace : (k + 1) * (2 + b.length) = 2 + b.length + k * (2 + b.length) := by ring
      simp only [hplace, Nat.add_assoc (2 + b.length), hexText_cons_getElem?_rest c _ hr]
      exact ⟨hhigh, hlow, fun j hj hlast => hsep j hj (by simpa using hlast)⟩

/-! The lexer. -/

theorem isWS_iff (c : Byte) : isWS c = true ↔ c ∈ whitespace := by
  simp [isWS, whitespace, or_assoc]

/-- The value of a digit is its place in its digit list (R102). -/
theorem digitValue?_eq (c : Byte) : digitValue? c = (hexVal? c).map BitVec.toNat := by
  revert c
  decide

/-- The lexer's digits are the digits of the body (R102). -/
theorem lexBody_digits (t : Bytes) : (lexBody t).1.map BitVec.toNat = digits t := by
  induction t with
  | nil => rfl
  | cons c t ih =>
    rw [lexBody, digits, List.filterMap_cons, digitValue?_eq]
    cases hexVal? c with
    | none => exact ih
    | some v => exact congrArg (v.toNat :: ·) ih

theorem lexBody_length (t : Bytes) : (lexBody t).1.length = (digits t).length := by
  rw [← lexBody_digits, List.length_map]

theorem hasBad_cons (c : Byte) (t : Bytes) :
    hasBad (c :: t) ↔ (digitValue? c = none ∧ c ∉ whitespace) ∨ hasBad t := by
  simp [hasBad]

/-- The lexer's flag says whether a bad byte stands in the body (R102). -/
theorem lexBody_bad_iff (t : Bytes) : (lexBody t).2 = true ↔ hasBad t := by
  induction t with
  | nil => simp [lexBody, hasBad]
  | cons c t ih =>
    rw [hasBad_cons, ← ih, ← isWS_iff, digitValue?_eq, lexBody]
    cases hexVal? c with
    | none => cases isWS c <;> simp
    | some v => simp

/-- The machine's validity predicate is R103's. -/
theorem lexValid_lexBody (t : Bytes) : lexValid (lexBody t) = true ↔ ValidHex t := by
  rw [ValidHex, ← lexBody_bad_iff, ← lexBody_length]
  simp [lexValid, and_assoc]

theorem stripHexMark_of_marked {t u : Bytes} : Marked t u → stripHexMark t = u := by
  rintro ⟨x, rfl, hx⟩
  exact if_pos ⟨rfl, hx⟩

theorem stripHexMark_of_not_marked {t : Bytes} (h : ¬ ∃ u, Marked t u) : stripHexMark t = t := by
  match t, h with
  | [], _ => rfl
  | [_], _ => rfl
  | z :: x :: rest, h =>
    refine if_neg ?_
    rintro ⟨rfl, hx⟩
    exact h ⟨rest, x, rfl, hx⟩

/-- One mark is taken off where there is one, and nothing else is (R102). -/
theorem stripHexMark_eq_iff (t body : Bytes) :
    stripHexMark t = body ↔ Marked t body ∨ ((¬ ∃ u, Marked t u) ∧ body = t) := by
  constructor
  · rintro rfl
    by_cases h : ∃ u, Marked t u
    · obtain ⟨u, hu⟩ := h
      exact .inl ((stripHexMark_of_marked hu).symm ▸ hu)
    · exact .inr ⟨h, stripHexMark_of_not_marked h⟩
  · rintro (h | ⟨h, rfl⟩)
    · exact stripHexMark_of_marked h
    · exact stripHexMark_of_not_marked h

/-- Leading whitespace, and what stands after it, can be told apart in one way only. -/
theorem dropWhile_isWS_append {spaces rest : Bytes} (hspaces : ∀ c ∈ spaces, c ∈ whitespace)
    (hrest : ∀ c ∈ rest.head?, c ∉ whitespace) : (spaces ++ rest).dropWhile isWS = rest := by
  rw [List.dropWhile_append_of_pos fun c hc => (isWS_iff c).2 (hspaces c hc)]
  cases rest with
  | nil => rfl
  | cons c r => exact List.dropWhile_cons_of_neg fun h => hrest c rfl ((isWS_iff c).1 h)

/-- The body that the machine's lexer passes over (R102). -/
def lexedBody (text : Bytes) : Bytes := stripHexMark (text.dropWhile isWS)

theorem lex_eq (text : Bytes) : lex text = lexBody (lexedBody text) := rfl

/-- A text has one body, the one the lexer passes over (R102). -/
theorem body_iff (text body : Bytes) : Body text body ↔ body = lexedBody text := by
  constructor
  · rintro ⟨spaces, rest, rfl, hspaces, hrest, hbody⟩
    rw [lexedBody, dropWhile_isWS_append hspaces hrest]
    exact ((stripHexMark_eq_iff rest body).2 hbody).symm
  · intro h
    refine ⟨text.takeWhile isWS, text.dropWhile isWS, List.takeWhile_append_dropWhile.symm,
      fun c hc => (isWS_iff c).1 (List.mem_takeWhile_imp hc), fun c hc hws => ?_,
      (stripHexMark_eq_iff _ body).1 h.symm⟩
    have hns : isWS c = false := by simpa [Option.mem_def.1 hc] using List.head?_dropWhile_not isWS text
    exact Bool.false_ne_true (hns.symm.trans ((isWS_iff c).2 hws))

/-! The bytes of HEX.DEC. -/

/-- Two nibbles as one byte (R104). -/
theorem nibbles_toNat (h l : Nibble) :
    ((h.setWidth 8 <<< 4) ||| l.setWidth 8 : Byte).toNat = 16 * h.toNat + l.toNat := by
  revert h l
  decide

theorem pairDigits_length : ∀ ds : List Nibble, (pairDigits ds).length = ds.length / 2
  | [] => rfl
  | [_] => by simp [pairDigits]
  | h :: l :: rest => by
    simp only [pairDigits, List.length_cons, pairDigits_length rest]
    omega

/-- Byte `k` is the digits `2k` and `2k + 1`, high nibble first (R104). -/
theorem pairDigits_getElem? {ds : List Nibble} {k : Nat} {b : Byte} (hb : (pairDigits ds)[k]? = some b) :
    ∃ h l, ds[2 * k]? = some h ∧ ds[2 * k + 1]? = some l ∧ b.toNat = 16 * h.toNat + l.toNat := by
  induction ds using pairDigits.induct generalizing k with
  | case1 h l rest ih =>
    cases k with
    | zero =>
      cases Option.some.inj hb
      exact ⟨h, l, rfl, rfl, nibbles_toNat h l⟩
    | succ k => exact ih hb
  | case2 ds hds => simp [pairDigits] at hb

/-- Settles O38: the model's text has R100's length and bytes. -/
theorem hexEncode : Obligations.HexEncode := fun a b s =>
  ⟨hexText b a, isHexText_hexText a b, exec_hexEnc a b s⟩

/-- Settles O39: the lexed body is the one body, and the lexer's digits and flag are those of R102. -/
theorem hexPredicate : Obligations.HexPredicate := by
  intro a s
  refine ⟨lexedBody a, validityByte (lexValid (lex a)), (body_iff a _).2 rfl, fun other => (body_iff a other).1, ?_, ?_⟩
  · rw [← lexValid_lexBody, ← lex_eq]
    cases lexValid (lex a) <;> simp [validityByte]
  · rw [exec_hexIshex, isHexResult, lex_eq, lexBody_length]

/-- Settles O40: the lexer's digits are the body's, and the bytes are made of them two by two. -/
theorem hexDecode : Obligations.HexDecode := by
  intro a s
  refine ⟨lexedBody a, (body_iff a _).2 rfl, ?_⟩
  rw [exec_hexDec, lex_eq]
  by_cases hv : ValidHex (lexedBody a)
  · refine .inl ⟨hv, pairDigits (lexBody (lexedBody a)).1, ?_, fun k b hb => ?_, ?_⟩
    · obtain ⟨-, -, heven⟩ := hv
      rw [pairDigits_length, lexBody_length]
      omega
    · obtain ⟨h, l, hh, hl, hb⟩ := pairDigits_getElem? hb
      exact ⟨h.toNat, l.toNat, by simp [← lexBody_digits, hh], by simp [← lexBody_digits, hl], hb⟩
    · rw [if_pos ((lexValid_lexBody _).2 hv), countedBytes]
  · exact .inr ⟨hv, by rw [if_neg (mt (lexValid_lexBody _).1 hv)]⟩

end Sys2Proof.Proofs

/-! The checksum operations (R132 to R144): the machine's registers as the plain numbers of the statements, what stands
in a trailer, and what each operation answers. -/

namespace Sys2Proof.Proofs

open Sys2Proof.Machine Sys2Proof.Spec

/-! The CRC-16 register as a number. -/

/-- A map that carries `f` to `g` carries its repetition to that of `g`. -/
theorem repeat_map {α β : Type} (φ : α → β) {f : α → α} {g : β → β} (h : ∀ x, φ (f x) = g (φ x))
    (n : Nat) (x : α) : φ (Nat.repeat f n x) = Nat.repeat g n (φ x) := by
  induction n with
  | zero => rfl
  | succ n ih => rw [Nat.repeat, h, ih, Nat.repeat]

/-- A byte in the high half of a u16. -/
theorem toNat_highByte (b : Byte) : (b.setWidth 16 <<< 8).toNat = b.toNat * 256 := by
  have hb := b.isLt
  rw [BitVec.toNat_shiftLeft, BitVec.toNat_setWidth, Nat.shiftLeft_eq]
  omega

/-- One round of R139 on the register's value. -/
theorem toNat_crc16Round (r : BitVec 16) : (Machine.crc16Round r).toNat = Spec.crc16Round r.toNat := by
  have hshift : (r <<< 1).toNat = r.toNat * 2 % 65536 := by rw [BitVec.toNat_shiftLeft, Nat.shiftLeft_eq]
  have htop : r.getLsbD 15 = true ↔ r.toNat / 32768 % 2 = 1 := by
    rw [BitVec.getLsbD, Nat.testBit_eq_decide_div_mod_eq, decide_eq_true_iff]
  unfold Machine.crc16Round Spec.crc16Round
  simp only [htop]
  split
  · rw [BitVec.toNat_xor, hshift]; rfl
  · exact hshift

/-- One byte absorbed, on the register's value (R139). -/
theorem toNat_crc16Byte (r : BitVec 16) (b : Byte) :
    (crc16Byte r b).toNat = Nat.repeat Spec.crc16Round 8 (r.toNat ^^^ (b.toNat * 256)) := by
  rw [crc16Byte, repeat_map BitVec.toNat toNat_crc16Round, BitVec.toNat_xor, toNat_highByte]

/-- The machine's CRC-16 has the value of R139's. -/
theorem toNat_crc16 (a : Bytes) : (Machine.crc16 a).toNat = Spec.crc16 a :=
  (List.foldl_hom BitVec.toNat fun r b => (toNat_crc16Byte r b).symm).symm

/-! The two bytes of a CRC-16, and the trailer that holds them. -/

/-- The bytes of a u16 are those of its value (R43). -/
theorem u16be_eq_u16Bytes (r : BitVec 16) : u16be r = u16Bytes r.toNat := by
  simp only [u16be, u16Bytes, byte, List.cons.injEq, and_true]
  constructor <;> apply BitVec.eq_of_toNat_eq
  · rw [BitVec.extractLsb'_toNat, BitVec.toNat_ofNat, Nat.shiftRight_eq_div_pow]
  · rw [BitVec.extractLsb'_toNat, BitVec.toNat_ofNat, Nat.shiftRight_zero, Nat.mod_mod]

/-- The bytes of a register are those of R139's number. -/
theorem u16be_crc16 (a : Bytes) : u16be (Machine.crc16 a) = u16Bytes (Spec.crc16 a) := by
  rw [u16be_eq_u16Bytes, toNat_crc16]

/-- Two bytes as a u16, most-significant first (R43). -/
theorem toNat_twoBytes (b0 b1 : Byte) : ((b0.setWidth 16 <<< 8) ||| b1.setWidth 16).toNat =
    b0.toNat * 256 + b1.toNat := by
  have hb := b1.isLt
  rw [BitVec.toNat_or, toNat_highByte, BitVec.toNat_setWidth_of_le (by omega), Nat.mul_comm]
  exact (Nat.two_pow_add_eq_or_of_lt hb b0.toNat).symm

/-- A u16 put together from two bytes has those bytes. -/
theorem u16be_twoBytes (b0 b1 : Byte) : u16be ((b0.setWidth 16 <<< 8) ||| b1.setWidth 16) = [b0, b1] := by
  have h0 := b0.isLt
  have h1 := b1.isLt
  rw [u16be_eq_u16Bytes, toNat_twoBytes, u16Bytes, byte, byte]
  congr 2 <;> apply BitVec.eq_of_toNat_eq <;> rw [BitVec.toNat_ofNat] <;> omega

/-- The byte-swapped register has the two bytes in the other order (R143). -/
theorem u16be_byteSwap (r : BitVec 16) : u16be (byteSwap r) = (u16be r).reverse := u16be_twoBytes _ _

/-- The bytes of a u16 read back as that u16 (R43). -/
theorem trailerValue_u16be (r : BitVec 16) : trailerValue (u16be r) = some r := by
  have hr := r.isLt
  refine congrArg some (BitVec.eq_of_toNat_eq ?_)
  simp only [toNat_twoBytes, BitVec.extractLsb'_toNat, Nat.shiftRight_eq_div_pow]
  omega

/-- A trailer reads as the u16 whose bytes it is. -/
theorem trailerValue_eq_some_iff (t : Bytes) (r : BitVec 16) : trailerValue t = some r ↔ t = u16be r := by
  constructor
  · intro h
    match t, h with
    | [t0, t1], h =>
      rw [← Option.some.inj h, u16be_twoBytes]
  · rintro rfl
    exact trailerValue_u16be r

/-- A trailer matches when it is the bytes of the mode's CRC-16 of all bytes before it (R141, R144). -/
theorem trailerMatches_iff (mode : BitVec 16 → BitVec 16) (f : Bytes) :
    trailerMatches mode f = true ↔ f.drop (f.length - 2) = u16be (mode (Machine.crc16 (f.take (f.length - 2)))) := by
  rw [trailerMatches, beq_iff_eq, trailerValue_eq_some_iff]

/-- The big-endian trailer check is R141's. -/
theorem trailerMatches_id (f : Bytes) : trailerMatches id f = trailerValid f := by
  rw [Bool.eq_iff_iff, trailerMatches_iff, id, u16be_crc16, trailerValid, beq_iff_eq]

/-- The little-endian trailer check compares with the bytes in the other order (R144). -/
theorem trailerMatches_byteSwap_iff (f : Bytes) : trailerMatches byteSwap f = true ↔
    f.drop (f.length - 2) = (u16Bytes (Spec.crc16 (f.take (f.length - 2)))).reverse := by
  rw [trailerMatches_iff, u16be_byteSwap, u16be_crc16]

/-! What each operation answers. -/

/-- CRC16L.CMP in a build that has it is `finish` (R143). -/
theorem exec_crc16lCmp {s : State} (h : s.cfg.hasCrc16Le = true) (a : Bytes) :
    exec (.crc16lCmp a) s = finish (u16be (byteSwap (Machine.crc16 a))) s := if_pos h

/-- CRC16L.VFY in a build that has it is the verify of its mode (R144). -/
theorem exec_crc16lVfy {s : State} (h : s.cfg.hasCrc16Le = true) (f : Bytes) :
    exec (.crc16lVfy f) s = verify byteSwap f s := if_pos h

/-- Settles O28: the register has the value of R139's, byte by byte of the operand, and is answered big-endian. -/
theorem crcSixteenCompute : Obligations.CrcSixteenCompute := by
  intro a s
  rw [← u16be_crc16]
  exact finish_eq _ s

/-- Settles O29: the trailer read as a u16 is the register when it is the register's two bytes. -/
theorem crcSixteenVerify : Obligations.CrcSixteenVerify := by
  intro f s
  rw [← trailerMatches_id]
  exact verify_eq id f s

/-- Settles O30: the swapped register answered big-endian is the register answered little-endian. -/
theorem littleEndianCompute : Obligations.LittleEndianCompute := by
  intro a s hle
  rw [exec_crc16lCmp hle, finish_eq, u16be_byteSwap, u16be_crc16]

/-- Settles O31: the trailer read as a u16 is the swapped register when it is the register's two bytes in reverse. -/
theorem littleEndianVerify : Obligations.LittleEndianVerify := by
  intro f s hle
  simp only [exec_crc16lVfy hle, verify_eq, validityByte, trailerMatches_byteSwap_iff]

/-- Settles O25: the operation is `finish` of the fold. -/
theorem crcEightFoldsTheTable : Obligations.CrcEightFoldsTheTable := fun a s => finish_eq [Machine.crc8 s.t8 a] s

/-- Settles O27: the operation is `raise`. -/
theorem crcEightVerifyIsIllegal : Obligations.CrcEightVerifyIsIllegal := fun _ s => raise_eq .illegalOperation s

end Sys2Proof.Proofs

/-! The loop of R172 and the chunks of FX.EXT and PE.PROC: `drain` is the one outcome of `Drains`, and both operations
answer the frames of any outcome. -/

namespace Sys2Proof.Proofs

open Sys2Proof.Machine Sys2Proof.Spec

/-! Frames. -/

section Loop

variable {bl f last : Bytes} {fs : List Bytes}

/-- R173: a frame is from 4 to 259 bytes long. -/
theorem isFrame_length (h : IsFrame f) : 4 ≤ f.length ∧ f.length ≤ 259 := by
  obtain ⟨l, rest, rfl, hrest⟩ := h
  have hl := l.isLt
  simp only [List.length_cons]
  omega

/-- A frame at the head is found by its length byte, whatever follows it (R172 steps 2b to 2d). -/
theorem completeFrame?_of_isFrame (h : IsFrame f) (more : Bytes) :
    completeFrame? (f ++ more) = some f.length := by
  obtain ⟨l, rest, rfl, hrest⟩ := h
  rw [List.cons_append, List.cons_append, completeFrame?_cons, if_neg (by rw [List.length_append]; omega)]
  simp only [List.length_cons, Option.some.injEq]
  omega

/-! The loop. -/

/-- The machine's loop is an outcome of R172's: so the loop always ends. -/
theorem drains_drain (bl : Bytes) : Drains bl (drain bl).1 (drain bl).2 := by
  cases hc : completeFrame? (resync bl) with
  | none =>
    rw [drain_stop hc]
    exact .stop (resync_spec bl) ((completeFrame?_eq_none_iff _).mp hc)
  | some n =>
    obtain ⟨hframe, hpos, hle⟩ := isFrame_take hc
    have hresync := resync_length_le bl
    rw [drain_take hc]
    exact .take (by rw [List.take_append_drop]; exact resync_spec bl) hframe (drains_drain ((resync bl).drop n))
termination_by bl.length
decreasing_by
  rw [List.length_drop]
  omega

/-- R172's loop has no other outcome than the machine's. -/
theorem drain_eq_of_drains (h : Drains bl fs last) : drain bl = (fs, last) := by
  induction h with
  | stop hresynced hincomplete =>
    obtain rfl := resync_eq_of_resynced hresynced
    exact drain_stop ((completeFrame?_eq_none_iff _).mpr hincomplete)
  | take hresynced hframe _ ih =>
    have hresync := resync_eq_of_resynced hresynced
    rw [drain_take (hresync ▸ completeFrame?_of_isFrame hframe _), hresync, List.take_left, List.drop_left, ih]

theorem isFrame_of_drains (h : Drains bl fs last) : ∀ f ∈ fs, IsFrame f := by
  induction h with
  | stop => exact nofun
  | take _ hframe _ ih => exact List.forall_mem_cons.mpr ⟨hframe, ih⟩

theorem resynced_length_le {r : Bytes} (h : Resynced bl r) : r.length ≤ bl.length :=
  resync_eq_of_resynced h ▸ resync_length_le bl

/-- Every frame taken accounts for at least four bytes of the backlog the loop starts from. -/
theorem drains_length_le (h : Drains bl fs last) : 4 * fs.length + last.length ≤ bl.length := by
  induction h with
  | stop hresynced _ => simpa using resynced_length_le hresynced
  | take hresynced hframe _ ih =>
    have hle := resynced_length_le hresynced
    have hfour := (isFrame_length hframe).1
    rw [List.length_append] at hle
    rw [List.length_cons]
    omega

end Loop

/-! What FX.EXT and PE.PROC answer. -/

section Stream

variable {a last : Bytes} {s : State} {fs : List Bytes}

/-- Past `BACKLOG_MAX`, BacklogOverflow is answered alone (R170). -/
theorem extract_of_not_fits (result : List Bytes → Bytes) (h : ¬ Fits s a.length) :
    extract result a s = .next (answered s [0x04]) := by
  rw [extract_eq, if_pos (by rwa [← overflows_eq_false_iff, Bool.not_eq_false] at h)]

/-- Within `BACKLOG_MAX`, the frames and the backlog of R172's loop are the ones answered and kept (R174). -/
theorem extract_of_drains (result : List Bytes → Bytes) (h : Fits s a.length) (hd : Drains (s.bl ++ a) fs last) :
    extract result a s = .next { s with bl := last, out := s.out ++ [okResponse (result fs)] } := by
  rw [extract_eq, (overflows_eq_false_iff s a).mpr h, if_neg Bool.false_ne_true, drain_eq_of_drains hd]

/-- PE.PROC's records are the frames, each after its validity byte (R66, R200). -/
theorem recordsResult_engineRecord (fs : List Bytes) : recordsResult (fs.map engineRecord) =
    u32be fs.length ++ (fs.map (fun f => (if trailerValid f then 0x01 else 0x00) :: f)).flatten := by
  rw [recordsResult, List.length_map, List.map_map]
  congr 3
  funext f
  simp only [Function.comp, engineRecord, recordBytes, validityByte, trailerMatches_id]

/-- A chunk that fits, to either operation. -/
theorem exec_streamOp_of_drains (engine : Bool) (h : Fits s a.length) (hd : Drains (s.bl ++ a) fs last) :
    exec (streamOp (engine, a)) s = .next { s with bl := last, out := s.out ++ [streamResponse engine fs] } := by
  cases engine with
  | false => exact extract_of_drains framesResult h hd
  | true =>
    refine (extract_of_drains (fun fs => recordsResult (fs.map engineRecord)) h hd).trans ?_
    rw [recordsResult_engineRecord]
    rfl

end Stream

/-- Settles O44: the loop ends as the machine's does, and in no other way. -/
theorem extractFollowsTheLoop : Obligations.ExtractFollowsTheLoop := by
  intro a s
  refine ⟨fun hfits => ⟨⟨_, _, drains_drain _⟩, fun fs last hd => ?_⟩, fun hover => ?_⟩
  · exact extract_of_drains framesResult hfits hd
  · exact extract_of_not_fits framesResult hover

/-- Settles O46: the frames answered are those the loop takes, each a frame and at least four bytes of `BL ++ A`. -/
theorem answeredFramesAreWhole : Obligations.AnsweredFramesAreWhole := by
  intro engine a s hfits
  have hd := drains_drain (s.bl ++ a)
  have hle := drains_length_le hd
  rw [List.length_append] at hle
  refine ⟨_, _, exec_streamOp_of_drains engine hfits hd, fun f hf => ?_, by omega⟩
  have hframe := isFrame_of_drains hd f hf
  exact ⟨hframe, isFrame_length hframe⟩

end Sys2Proof.Proofs

/-! PE.PROC (R200, R201): the frames of FX.EXT, each reported after its validity byte. -/

namespace Sys2Proof.Proofs

open Sys2Proof.Machine Sys2Proof.Spec

/-- Settles O45: PE.PROC is the loop of FX.EXT with the records of the frames as its result, within `BACKLOG_MAX` and
past it. -/
theorem processReportsRecords : Obligations.ProcessReportsRecords := by
  intro a s
  refine ⟨fun hfits => ⟨⟨_, _, drains_drain _⟩, fun fs last hd => ?_⟩, fun hover => ?_⟩
  · exact exec_streamOp_of_drains true hfits hd
  · exact extract_of_not_fits (fun fs => recordsResult (fs.map engineRecord)) hover

end Sys2Proof.Proofs

/-! An operation that ends with a non-OK status (R221). -/

namespace Sys2Proof.Proofs

open Sys2Proof.Machine Sys2Proof.Spec

/-- The response sent last can be read off the list of responses. -/
theorem answered_out_eq_iff (s : State) (r q : Bytes) : (answered s r).out = s.out ++ [q] ↔ r = q := by simp

/-- Settles O19: of the ways an operation ends, the two that answer a result open with 0x00; the one left is an error,
which answers its status byte and writes nothing. -/
theorem errorsLeaveNoTrace : Obligations.ErrorsLeaveNoTrace := by
  intro i s t c p h hout hc
  obtain ⟨r, he⟩ | ⟨st, -, he⟩ | ⟨a, r, -, -, he⟩ := ends_exec i s <;> cases h.symm.trans he
  case inl =>
    cases (answered_out_eq_iff s _ _).mp hout
    exact absurd rfl hc
  case inr.inl =>
    cases (answered_out_eq_iff s _ _).mp hout
    rfl
  case inr.inr =>
    cases (answered_out_eq_iff (s.withBacklog _) _ _).mp hout
    exact absurd rfl hc

end Sys2Proof.Proofs

/-! The state right after reset (R250). -/

namespace Sys2Proof.Proofs

/-- Settles O1: `State.reset` sets `BL` and `T8` to the values stated, and the entries of that table are known. -/
theorem resetStateAsStated : Obligations.ResetStateAsStated :=
  ⟨rfl, rfl, readT8_crc8Rom⟩

end Sys2Proof.Proofs

/-! The commands of the format (R60 to R65), both ways: decoding an encoded command and encoding a decoded one. -/

namespace Sys2Proof.Proofs

open Sys2Proof.Machine Sys2Proof.Spec

/-- The bytes of an operation map's answer are the code and the operand it was read from (R60, R64). -/
theorem encode_ofOpcode (opc : Byte) (a : Bytes) : encode (ofOpcode opc a) = opc :: putOperand a := by
  rcases ofOpcode_cases opc a with h | h | h | h | h | h | h | h | h | h | h
  pick_goal 11
  · rw [h.2, encode]
  all_goals
    rw [h.2, h.1]
    rfl

/-- Settles O14: both sides are finite lists of codes. -/
theorem reservedRangesAreTheRest : Obligations.ReservedRangesAreTheRest := by
  unfold Obligations.ReservedRangesAreTheRest
  decide

/-- A well-formed reserved command has a code with no row of its own (R65). -/
theorem unnamed_of_wellFormed_reserved {opc : Byte} {a : Bytes} (h : WellFormed (.reserved opc a)) :
    a.length ≤ maxOperandLen ∧ opc ∉ namedCodes := by
  simp only [WellFormed, wellFormed, Bool.and_eq_true, bne_iff_ne, ne_eq, operandFits_iff] at h
  obtain ⟨⟨ha, hres⟩, hne⟩ := h
  exact ⟨ha, ((reservedRangesAreTheRest opc).mp hres).resolve_left hne⟩

/-- Settles O11: an encoded command is laid out in one of the two formats, whose decoding is known, and the operation
map reads each code as its operation. -/
theorem decodeInvertsEncode : Obligations.DecodeInvertsEncode := by
  intro i rest hwf
  cases i
  case hexEnc a b =>
    obtain ⟨ha, hb⟩ := Bool.and_eq_true_iff.mp hwf
    rw [encode, List.cons_append, List.append_assoc]
    exact decode_formatC2 (operandFits_iff.mp ha) (operandFits_iff.mp hb) rest
  case reserved opc a =>
    obtain ⟨ha, hnamed⟩ := unnamed_of_wellFormed_reserved hwf
    have hne : opc ≠ 0x30 := fun h => hnamed (h ▸ by decide)
    rw [encode, List.cons_append, decode_formatC1 hne ha, ofOpcode_unnamed hnamed]
  all_goals exact decode_formatC1 (by decide) (operandFits_iff.mp hwf) rest

/-- Settles O12: the bytes are one of the two layouts, and each is the encoding of what it decodes to. -/
theorem decodedBytesAreTheEncoding : Obligations.DecodedBytesAreTheEncoding := by
  intro bytes i rest h
  obtain ⟨opc, a, hopc, ha, rfl, rfl⟩ | ⟨a, b, ha, hb, rfl, rfl⟩ := decode_cases h
  · exact ⟨wellFormed_ofOpcode hopc ha, by rw [encode_ofOpcode opc, List.cons_append]⟩
  · exact ⟨Bool.and_eq_true_iff.mpr ⟨operandFits_iff.mpr ha, operandFits_iff.mpr hb⟩, by
      rw [encode, List.cons_append, List.append_assoc]⟩

/-- Settles O15: the four bytes written for a length have that length as their u32 value. -/
theorem lengthFieldsReadBack : Obligations.LengthFieldsReadBack :=
  fun _ _ hn => congrArg some (u32Value_u32be hn)

/-- Settles O16: the examples are closed byte strings, and the decoder is run on each. -/
theorem exampleCommandsDecode : Obligations.ExampleCommandsDecode := by
  refine ⟨?_, ?_, ?_, ?_, ?_⟩ <;> rfl

/-- Settles O17: the examples are closed lines, and the assembler is run on each. -/
theorem exampleLinesAssemble : Obligations.ExampleLinesAssemble := by
  unfold Obligations.ExampleLinesAssemble
  decide

end Sys2Proof.Proofs

/-! What each operation answers and what it leaves unchanged, on every operand and in every state (R46, R65, R66,
R220). -/

namespace Sys2Proof.Proofs

open Sys2Proof.Machine Sys2Proof.Spec

/-- Settles O18: of the three ways an operation ends, two answer OK and a result and one a non-OK byte alone. -/
theorem everyCommandIsAnsweredOnce : Obligations.EveryCommandIsAnsweredOnce := by
  intro i s
  obtain ⟨r, he⟩ | ⟨st, hst, he⟩ | ⟨a, r, -, -, he⟩ := ends_exec i s
  · exact ⟨_, _, he, rfl, rfl, rfl, rfl, .inl ⟨r, rfl⟩⟩
  · exact ⟨_, _, he, rfl, rfl, rfl, rfl, .inr ⟨_, mt (statusCode_eq_zero st).mp hst, rfl⟩⟩
  · exact ⟨_, _, he, rfl, rfl, rfl, rfl, .inl ⟨r, rfl⟩⟩

/-! The status a response opens with. -/

/-- The outcome answers one more response, and it opens with one of those statuses. -/
def OpensWith (statuses : Bytes) (s : State) (o : Host.Outcome State Fault Refusal) : Prop :=
  ∃ t c p, o = .next t ∧ t.out = s.out ++ [c :: p] ∧ c ∈ statuses

section Statuses

variable {statuses : Bytes} {s : State}

theorem opensWith_finish (r : Bytes) (h : statuses.contains 0x00) : OpensWith statuses s (finish r s) :=
  ⟨_, _, _, finish_eq r s, rfl, List.contains_iff_mem.mp h⟩

theorem opensWith_raise {st : Status} (h : statuses.contains (statusCode st)) : OpensWith statuses s (raise st s) :=
  ⟨_, _, _, raise_eq st s, rfl, List.contains_iff_mem.mp h⟩

/-- An operation of two branches opens its response as its branches do. -/
theorem opensWith_ite {p : Prop} [Decidable p] {o o' : Host.Outcome State Fault Refusal}
    (h : OpensWith statuses s o) (h' : OpensWith statuses s o') : OpensWith statuses s (if p then o else o') := by
  split
  · exact h
  · exact h'

theorem opensWith_verify (mode : BitVec 16 → BitVec 16) (f : Bytes) (hok : statuses.contains 0x00)
    (hshort : statuses.contains 0x03) : OpensWith statuses s (verify mode f s) :=
  opensWith_ite (opensWith_raise hshort) (opensWith_finish _ hok)

theorem opensWith_extract (result : List Bytes → Bytes) (a : Bytes) :
    OpensWith [0x00, 0x04] s (extract result a s) := by
  rw [extract_eq]
  exact opensWith_ite ⟨_, _, _, rfl, rfl, by decide⟩ ⟨_, _, _, rfl, rfl, by decide⟩

end Statuses

/-- Settles O20: operation by operation, the status of each of its branches is in its list. -/
theorem statusesPerOperation : Obligations.StatusesPerOperation := by
  intro i s
  cases i with
  | crc8Cmp a => exact opensWith_finish _ rfl
  | crc8Vfy a => exact opensWith_raise rfl
  | crc16Cmp a => exact opensWith_finish _ rfl
  | crc16Vfy f => exact opensWith_verify id f rfl rfl
  | crc16lCmp a => exact opensWith_ite (opensWith_finish _ rfl) (opensWith_raise rfl)
  | crc16lVfy f => exact opensWith_ite (opensWith_verify byteSwap f rfl rfl) (opensWith_raise rfl)
  | hexEnc a b => exact opensWith_ite (opensWith_raise rfl) (opensWith_finish _ rfl)
  | hexDec a => exact opensWith_ite (opensWith_finish _ rfl) (opensWith_raise rfl)
  | hexIshex a => exact opensWith_finish _ rfl
  | fxExt a => exact opensWith_extract framesResult a
  | peProc a => exact opensWith_extract (fun fs => recordsResult (fs.map engineRecord)) a
  | reserved opc a => exact opensWith_raise rfl

/-! What a response depends on. -/

/-- Without the little-endian mode, CRC16L.CMP is `raise` (R65). -/
theorem exec_crc16lCmp_absent {s : State} (h : s.cfg.hasCrc16Le = false) (a : Bytes) :
    exec (.crc16lCmp a) s = raise .illegalOperation s := if_neg (Bool.eq_false_iff.mp h)

/-- Without the little-endian mode, CRC16L.VFY is `raise` (R65). -/
theorem exec_crc16lVfy_absent {s : State} (h : s.cfg.hasCrc16Le = false) (f : Bytes) :
    exec (.crc16lVfy f) s = raise .illegalOperation s := if_neg (Bool.eq_false_iff.mp h)

/-- Settles O32: both operations are `raise` in such a build. -/
theorem littleEndianReservedWhenAbsent : Obligations.LittleEndianReservedWhenAbsent := fun a _ h =>
  ⟨exec_crc16lCmp_absent h a, exec_crc16lVfy_absent h a⟩

/-- An operation that appends no chunk answers by the table, the build and its operands alone (R46). -/
theorem exec_of_chunkOf_eq_none {i : Instr} (h : chunkOf i = none) (s : State) :
    ∃ r, ∀ s' : State, s'.t8 = s.t8 → s'.cfg = s.cfg → exec i s' = .next (answered s' r) := by
  cases i with
  | crc8Cmp a => exact ⟨_, fun s' ht _ => ht ▸ crcEightFoldsTheTable a s'⟩
  | crc8Vfy a => exact ⟨_, fun s' _ _ => raise_eq _ s'⟩
  | crc16Cmp a => exact ⟨_, fun s' _ _ => finish_eq _ s'⟩
  | crc16Vfy f => exact ⟨_, fun s' _ _ => verify_eq id f s'⟩
  | crc16lCmp a =>
    cases hle : s.cfg.hasCrc16Le with
    | true => exact ⟨_, fun s' _ hc => exec_crc16lCmp (hc ▸ hle) a⟩
    | false => exact ⟨_, fun s' _ hc => exec_crc16lCmp_absent (hc ▸ hle) a⟩
  | crc16lVfy f =>
    cases hle : s.cfg.hasCrc16Le with
    | true => exact ⟨_, fun s' _ hc => (exec_crc16lVfy (hc ▸ hle) f).trans (verify_eq byteSwap f s')⟩
    | false => exact ⟨_, fun s' _ hc => exec_crc16lVfy_absent (hc ▸ hle) f⟩
  | hexEnc a b => exact ⟨_, fun s' _ _ => exec_hexEnc a b s'⟩
  | hexDec a => exact ⟨_, fun s' _ _ => exec_hexDec a s'⟩
  | hexIshex a => exact ⟨_, fun s' _ _ => exec_hexIshex a s'⟩
  | fxExt a => cases h
  | peProc a => cases h
  | reserved opc a => exact ⟨_, fun s' _ _ => raise_eq _ s'⟩

/-- Settles O21: the response is the same in both states, being made from what they share. -/
theorem pureOperationsIgnoreBacklog : Obligations.PureOperationsIgnoreBacklog := by
  intro i s s' h ht hc
  obtain ⟨r, hr⟩ := exec_of_chunkOf_eq_none h s
  exact ⟨r, hr s rfl rfl, hr s' ht.symm hc.symm⟩

/-- An operation with a chunk is FX.EXT or PE.PROC of it (R20). -/
theorem eq_streamOp_of_chunkOf {i : Instr} {a : Bytes} (h : chunkOf i = some a) :
    ∃ engine, i = streamOp (engine, a) := by
  cases i with
  | fxExt b => exact ⟨false, congrArg Instr.fxExt (Option.some.inj h)⟩
  | peProc b => exact ⟨true, congrArg Instr.peProc (Option.some.inj h)⟩
  | _ => cases h

/-- A chunk that does not fit, to either operation (R170). -/
theorem exec_streamOp_of_not_fits (engine : Bool) {a : Bytes} {s : State} (h : ¬ Fits s a.length) :
    exec (streamOp (engine, a)) s = .next (answered s [0x04]) := by
  cases engine with
  | false => exact extract_of_not_fits framesResult h
  | true => exact extract_of_not_fits (fun fs => recordsResult (fs.map engineRecord)) h

/-- The backlog and the response of FX.EXT and PE.PROC are made from the backlog and the build alone, and nothing else
is written. -/
theorem exec_streamOp_frame (engine : Bool) (a : Bytes) (s : State) :
    ∃ bl r, ∀ host, exec (streamOp (engine, a)) { s with host := host } =
      .next { s with bl := bl, out := s.out ++ [r], host := host } := by
  by_cases hfits : Fits s a.length
  · have hd := drains_drain (s.bl ++ a)
    exact ⟨_, _, fun host => exec_streamOp_of_drains (s := { s with host := host }) engine hfits hd⟩
  · exact ⟨_, _, fun host => exec_streamOp_of_not_fits (s := { s with host := host }) engine hfits⟩

/-- Settles O22: the frame of both operations, with the host's actions left as they are. -/
theorem streamingWritesOnlyBacklog : Obligations.StreamingWritesOnlyBacklog := by
  intro engine a s
  obtain ⟨bl, r, h⟩ := exec_streamOp_frame engine a s
  exact ⟨bl, r, h s.host⟩

/-- No operation reads or writes what the host has still to issue, and each writes at most `BL` and one response. -/
theorem exec_frame (i : Instr) (s : State) :
    ∃ bl r, ∀ host, exec i { s with host := host } =
      .next { s with bl := bl, out := s.out ++ [r], host := host } := by
  cases h : chunkOf i with
  | none =>
    obtain ⟨r, hr⟩ := exec_of_chunkOf_eq_none h s
    exact ⟨s.bl, r, fun host => hr { s with host := host } rfl rfl⟩
  | some a =>
    obtain ⟨engine, rfl⟩ := eq_streamOp_of_chunkOf h
    exact exec_streamOp_frame engine a s

end Sys2Proof.Proofs

/-! Steps, runs and the invariant (R15, R22, R47, R250). -/

namespace Sys2Proof.Proofs

open Sys2Proof.Machine Sys2Proof.Spec

section Steps

variable {s : State} {rest : List HostAction}

/-- A reset the host asserts between commands is taken, and empties `BL` (R250, R251). -/
theorem step_reset (h : s.host = .reset :: rest) : step s = .next { s with bl := [], host := rest } := by
  simp [step, fetch, h, State.applyReset]

/-- A well-formed command sent alone is executed, with all its bytes taken. -/
theorem step_encode {i : Instr} (h : WellFormed i) (hhost : s.host = .send (encode i) :: rest) :
    step s = exec i { s with host := rest } := by
  have hd := decodeInvertsEncode i [] h
  rw [List.append_nil] at hd
  exact step_command hhost hd

end Steps

/-- Settles O2: the step takes the reset. -/
theorem resetActionEmptiesBacklog : Obligations.ResetActionEmptiesBacklog := fun _ _ h => step_reset h

/-- Settles O5: the command's bytes are taken, and those after it, if any, stay to be sent. -/
theorem stepRunsTheDecodedCommand : Obligations.StepRunsTheDecodedCommand := by
  intro s bytes rest i more hhost hdecode
  rw [← hostAfter_eq]
  exact step_command hhost hdecode

/-- Settles O7: there is no action to take. -/
theorem idleHostHasNoStep : Obligations.IdleHostHasNoStep := by
  intro s h
  simp [step, fetch, h]

/-- Settles O9: the system's step sets one place of the list. -/
theorem instancesAreIndependent : Obligations.InstancesAreIndependent := by
  intro y k s h
  refine ⟨y.set k s, by rw [systemStep, h], List.length_set, List.getElem?_set_self k.isLt, fun j hj => ?_⟩
  exact List.getElem?_set_ne (Ne.symm hj)

/-- A run opens with a step that answers a next state. -/
theorem run_succ {s t : State} (h : step s = .next t) (k : Nat) : core.run (k + 1) s = core.run k t := by
  simp only [Host.Core.run, show core.step s = .next t from h]

/-- The first operation of a sequence that answers a next state. -/
theorem execAll_cons {i : Instr} {s t : State} (h : exec i s = .next t) (is : List Instr) :
    execAll (i :: is) s = execAll is t := by
  rw [execAll, h]

/-- Settles O8: each command is one step that executes it, and what the host has still to issue changes neither its
response nor the backlog it leaves. -/
theorem runAnswersEveryCommand : Obligations.RunAnswersEveryCommand := by
  intro cmds
  induction cmds with
  | nil => exact fun s _ => ⟨{ s with host := [] }, [], rfl, rfl, rfl, (List.append_nil _).symm, rfl⟩
  | cons i cmds ih =>
    intro s hwf
    obtain ⟨hi, hcmds⟩ := List.forall_mem_cons.mp hwf
    obtain ⟨bl, r, hexec⟩ := exec_frame i s
    obtain ⟨t, rs, hrun, hall, hhost, hout, hlen⟩ := ih { s with bl := bl, out := s.out ++ [r] } hcmds
    have hstep : step { s with host := (i :: cmds).map fun i => .send (encode i) } = _ :=
      (step_encode hi rfl).trans (hexec _)
    exact ⟨t, r :: rs, (run_succ hstep cmds.length).trans hrun, (execAll_cons (hexec []) cmds).trans hall, hhost,
      by simpa using hout, congrArg Nat.succ hlen⟩

/-- Settles O53: a reserved code decodes to a reserved command or, 0x11, to CRC8.VFY, and both are `raise`. -/
theorem reservedCommandIsConsumedWhole : Obligations.ReservedCommandIsConsumedWhole := by
  refine ⟨fun opc a s => raise_eq .illegalOperation s, fun opc a more rest s hres ha hhost => ?_⟩
  have hne : opc ≠ 0x30 := by
    rintro rfl
    exact absurd hres (by decide)
  rw [← putOperand_append] at hhost
  rw [step_command hhost (decode_formatC1 hne (operandFits_iff.mp ha) more), hostAfter_eq]
  obtain rfl | hnamed := (reservedRangesAreTheRest opc).mp hres
  · rfl
  · rw [ofOpcode_unnamed hnamed]
    rfl

/-! The invariant. -/

/-- Settles O3: `BL` is empty, the table is the ROM and the build is the reference one. -/
theorem resetEstablishesInvariant : Obligations.ResetEstablishesInvariant := ⟨.inl rfl, rfl, rfl⟩

section Invariant

variable {bl last : Bytes} {fs : List Bytes}

/-- A backlog with its sentinel in front and no complete frame satisfies R22. -/
theorem backlogInv_of_incomplete (h : bl = [] ∨ bl.head? = some sentinel) (hinc : Incomplete bl) : BacklogInv bl := by
  refine h.imp_right fun hhead => ⟨hhead, hinc.imp_right ?_⟩
  rintro ⟨b, l, t, rfl, hlt⟩
  exact hlt

/-- R22 says that the backlog is resynchronized and holds no complete frame. -/
theorem incomplete_of_backlogInv (h : BacklogInv bl) : Incomplete bl := by
  obtain rfl | ⟨-, hshort | hlt⟩ := h
  · exact .inl (by decide)
  · exact .inl hshort
  · match bl, hlt with
    | [], _ => exact .inl (by decide)
    | [_], _ => exact .inl (by simp)
    | b :: l :: t, hlt => exact .inr ⟨b, l, t, rfl, hlt⟩

/-- An incomplete frame is at most 258 bytes long (R176). -/
theorem length_le_of_backlogInv (h : BacklogInv bl) : bl.length ≤ 258 := by
  have hl := (bl.getD 1 0).isLt
  obtain rfl | ⟨-, hshort | hlt⟩ := h
  · decide
  · omega
  · omega

/-- The loop leaves R22's condition, whatever it starts from. -/
theorem backlogInv_of_drains (h : Drains bl fs last) : BacklogInv last := by
  induction h with
  | stop hresynced hincomplete =>
    obtain ⟨-, -, -, hhead⟩ := hresynced
    exact backlogInv_of_incomplete hhead hincomplete
  | take _ _ _ ih => exact ih

/-- Nothing is taken from a backlog with R22's condition, and nothing is dropped. -/
theorem drains_of_backlogInv (h : BacklogInv bl) : Drains bl [] bl :=
  .stop ⟨[], rfl, List.not_mem_nil, h.imp_right And.left⟩ (incomplete_of_backlogInv h)

end Invariant

/-- Every operation keeps the invariant: it writes at most `BL`, and leaves there what the loop leaves. -/
theorem inv_exec {i : Instr} {s t : State} (hinv : Spec.Inv s) (h : exec i s = .next t) : Spec.Inv t := by
  obtain ⟨hbl, hrom, hbuild⟩ := hinv
  obtain ⟨r, he⟩ | ⟨st, -, he⟩ | ⟨a, r, -, -, he⟩ := ends_exec i s <;> cases h.symm.trans he
  case inl => exact ⟨hbl, hrom, hbuild⟩
  case inr.inl => exact ⟨hbl, hrom, hbuild⟩
  case inr.inr => exact ⟨backlogInv_of_drains (drains_drain _), hrom, hbuild⟩

/-- Settles O4: a step is a reset, which empties `BL`, or an operation on a state that differs in the host's actions
alone. -/
theorem everyStepKeepsInvariant : Obligations.EveryStepKeepsInvariant := by
  intro s t hinv h
  obtain ⟨rest, -, rfl⟩ | ⟨bytes, rest, i, more, -, -, he⟩ := step_cases h
  · exact ⟨.inl rfl, hinv.rom, hinv.build⟩
  · exact inv_exec (s := { s with host := hostAfter more rest }) ⟨hinv.backlog, hinv.rom, hinv.build⟩ he

end Sys2Proof.Proofs

/-! The checksums (R133, R145 to R147): the bitwise form of CRC-8, trailers that verify and trailers that do not, the
residues, and single changed bits. -/

namespace Sys2Proof.Proofs

open Sys2Proof.Machine Sys2Proof.Spec

/-! CRC-8. -/

/-- With the ROM, one table lookup is R133's eight rounds. -/
theorem toNat_crc8_crc8Rom (a : Bytes) : (Machine.crc8 crc8Rom a).toNat = Spec.crc8 a :=
  (List.foldl_hom BitVec.toNat fun r b => by rw [readT8_crc8Rom, BitVec.toNat_xor]).symm

/-- Settles O26: the table's fold has the value of R133's. -/
theorem crcEightIsBitwise : Obligations.CrcEightIsBitwise := by
  intro a s hrom
  rw [← toNat_crc8_crc8Rom, byte, BitVec.ofNat_toNat, BitVec.setWidth_eq, ← hrom]
  exact finish_eq _ s

/-- Settles O35: the register meets itself, and entry 0 of the table is 0. -/
theorem crcEightResidue : Obligations.CrcEightResidue := by
  intro h s hrom
  have hzero : Machine.crc8 s.t8 (h ++ [Machine.crc8 s.t8 h]) = 0x00 := by
    rw [crc8_append, List.foldl_cons, List.foldl_nil, BitVec.xor_self, hrom]
    rfl
  refine ⟨Machine.crc8 s.t8 h, finish_eq _ s, ?_⟩
  rw [← hzero]
  exact finish_eq _ s

/-! Trailers. -/

section Trailers

variable (mode : BitVec 16 → BitVec 16) (s : State) {h t : Bytes}

/-- Two bytes after a string match when they are those of the mode's CRC-16 of the string. -/
theorem trailerMatches_append_iff (ht : t.length = 2) :
    trailerMatches mode (h ++ t) = true ↔ t = u16be (mode (Machine.crc16 h)) := by
  have hlen : (h ++ t).length - 2 = h.length := by
    rw [List.length_append]
    omega
  rw [trailerMatches_iff, hlen, List.drop_left, List.take_left]

/-- A verify of a string with two bytes after it compares them with the mode's CRC-16 of the string. -/
theorem verify_append (ht : t.length = 2) : verify mode (h ++ t) s =
    .next (answered s (okResponse [if t = u16be (mode (Machine.crc16 h)) then 0x01 else 0x00])) := by
  have hlong : ¬ (h ++ t).length < 2 := by
    rw [List.length_append]
    omega
  rw [verify_eq, if_neg hlong]
  simp only [validityByte, trailerMatches_append_iff mode ht]

/-- The mode's own trailer verifies. -/
theorem verify_append_trailer (h : Bytes) :
    verify mode (h ++ u16be (mode (Machine.crc16 h))) s = .next (answered s (okResponse [0x01])) := by
  rw [verify_append mode s rfl, if_pos rfl]

end Trailers

/-- Settles O33: each compute answers the trailer that its verify compares with. -/
theorem computedTrailersVerify : Obligations.ComputedTrailersVerify :=
  ⟨fun h s => ⟨_, finish_eq _ s, verify_append_trailer id s h⟩, fun h s hle =>
    ⟨_, exec_crc16lCmp hle h, (exec_crc16lVfy hle _).trans (verify_append_trailer byteSwap s h)⟩⟩

/-- The bytes of a register below 2^16 are the same in both orders only if they are one byte twice. -/
theorem u16Bytes_ne_reverse {n : Nat} (hn : n < 65536) (h : n / 256 ≠ n % 256) : u16Bytes n ≠ (u16Bytes n).reverse := by
  intro he
  have hbyte : byte (n / 256) = byte (n % 256) := (List.cons.inj he).1
  have := congrArg BitVec.toNat hbyte
  simp only [byte, BitVec.toNat_ofNat] at this
  omega

/-- Settles O37: the bytes in the one order are not those in the other, which the verify compares with. -/
theorem swappedTrailersFail : Obligations.SwappedTrailersFail := by
  intro h s hne
  have hswap := u16Bytes_ne_reverse (toNat_crc16 h ▸ (Machine.crc16 h).isLt) hne
  refine ⟨?_, fun hle => ?_⟩
  · refine (verify_append id s rfl).trans ?_
    rw [id, u16be_crc16, if_neg hswap.symm]
  · rw [exec_crc16lVfy hle, verify_append byteSwap s rfl, u16be_byteSwap, u16be_crc16, if_neg hswap]

/-! CRC-16: the residue. -/

/-- A byte in the low half of the register is moved to the high half by 8 rounds (R139). -/
theorem repeat_crc16Round_lowByte (b : Byte) :
    Nat.repeat Machine.crc16Round 8 (b.setWidth 16) = b.setWidth 16 <<< 8 := by
  revert b
  decide

/-- A register without its high byte is its low byte. -/
theorem xor_highByte (r : BitVec 16) :
    r ^^^ ((r.extractLsb' 8 8).setWidth 16 <<< 8) = (r.extractLsb' 0 8).setWidth 16 := by
  ext i hi
  by_cases hlow : i < 8
  · simp [hlow, BitVec.getLsbD_eq_getElem hi]
  · have hhigh : 8 + (i - 8) = i := by omega
    have hrange : i - 8 < 8 := by omega
    simp [hlow, hhigh, hrange, hi]

/-- Absorbing the register's own two bytes leaves zero. -/
theorem foldl_crc16Byte_u16be (r : BitVec 16) : (u16be r).foldl crc16Byte r = 0 := by
  have hhigh : crc16Byte r (r.extractLsb' 8 8) = (r.extractLsb' 0 8).setWidth 16 <<< 8 := by
    rw [crc16Byte, xor_highByte, repeat_crc16Round_lowByte]
  rw [u16be, List.foldl_cons, List.foldl_cons, List.foldl_nil, hhigh, crc16Byte, BitVec.xor_self]
  rfl

/-- Settles O34: the CRC-16 of the string is the register that its own two bytes are then absorbed into. -/
theorem crcSixteenResidue : Obligations.CrcSixteenResidue := by
  intro h s
  have hzero : u16be (Machine.crc16 (h ++ u16be (Machine.crc16 h))) = [0x00, 0x00] := by
    rw [crc16_append, foldl_crc16Byte_u16be]
    rfl
  refine ⟨_, finish_eq _ s, ?_⟩
  rw [← hzero]
  exact finish_eq _ s

/-! CRC-16: one changed byte. -/

/-- A round shifts, and applies the polynomial by the bit that is shifted out (R139). -/
theorem crc16Round_eq (r : BitVec 16) :
    Machine.crc16Round r = (r <<< 1) ^^^ (if r.getLsbD 15 then 0x1021 else 0) := by
  unfold Machine.crc16Round
  split
  · rfl
  · exact BitVec.xor_zero.symm

/-- The polynomial is odd, so the bit a round shifts out stands in its low bit. -/
theorem crc16Round_getLsbD_zero (r : BitVec 16) : (Machine.crc16Round r).getLsbD 0 = r.getLsbD 15 := by
  rw [crc16Round_eq]
  cases r.getLsbD 15 <;> simp

/-- A register is its top bit and what a shift keeps of it. -/
theorem eq_of_shiftLeft_one {r r' : BitVec 16} (htop : r.getLsbD 15 = r'.getLsbD 15) (h : r <<< 1 = r' <<< 1) :
    r = r' := by
  refine BitVec.eq_of_getLsbD_eq fun i hi => ?_
  by_cases hlast : i = 15
  · rw [hlast, htop]
  · have hbit := congrArg (·.getLsbD (i + 1)) h
    simpa [show i + 1 < 16 by omega, BitVec.getLsbD_eq_getElem hi] using hbit

/-- A round loses nothing: its low bit tells whether the polynomial was applied. -/
theorem crc16Round_injective : Function.Injective Machine.crc16Round := by
  intro r r' h
  have htop : r.getLsbD 15 = r'.getLsbD 15 := by
    rw [← crc16Round_getLsbD_zero, h, crc16Round_getLsbD_zero]
  rw [crc16Round_eq, crc16Round_eq, htop, BitVec.xor_left_inj] at h
  exact eq_of_shiftLeft_one htop h

theorem repeat_injective {α : Type} {f : α → α} (hf : Function.Injective f) (n : Nat) :
    Function.Injective (Nat.repeat f n) := by
  induction n with
  | zero => exact Function.injective_id
  | succ n ih => exact hf.comp ih

/-- Bytes in the high half of a u16 are told apart by it. -/
theorem highByte_injective : Function.Injective fun b : Byte => (b.setWidth 16 <<< 8 : BitVec 16) := by
  intro b c h
  have hval := congrArg BitVec.toNat h
  simp only [toNat_highByte] at hval
  exact BitVec.eq_of_toNat_eq (Nat.eq_of_mul_eq_mul_right (by decide) hval)

/-- Absorbing the same byte keeps different registers different. -/
theorem crc16Byte_injective_register (b : Byte) : Function.Injective fun r => crc16Byte r b := by
  intro r r' h
  exact (BitVec.xor_left_inj _).mp (repeat_injective crc16Round_injective 8 h)

/-- Absorbing different bytes makes one register different ones. -/
theorem crc16Byte_injective (r : BitVec 16) : Function.Injective (crc16Byte r) := by
  intro b c h
  exact highByte_injective ((BitVec.xor_right_inj r).mp (repeat_injective crc16Round_injective 8 h))

/-- Absorbing the same bytes keeps different registers different. -/
theorem foldl_crc16Byte_injective (a : Bytes) : Function.Injective fun r => a.foldl crc16Byte r := by
  induction a with
  | nil => exact Function.injective_id
  | cons b a ih => exact fun r r' h => crc16Byte_injective_register b (ih h)

/-- Strings that differ in one byte have different CRC-16s. -/
theorem crc16_set_ne {h : Bytes} {i : Nat} (hi : i < h.length) {c : Byte} (hc : c ≠ h[i]) :
    Machine.crc16 (h.set i c) ≠ Machine.crc16 h := by
  have hsplit : h = h.take i ++ h[i] :: h.drop (i + 1) := by simp
  intro he
  rw [List.set_eq_take_append_cons_drop, if_pos hi] at he
  conv_rhs at he => rw [hsplit]
  rw [crc16_append, crc16_append] at he
  exact hc (crc16Byte_injective _ (foldl_crc16Byte_injective _ he))

theorem u16be_injective : Function.Injective u16be := by
  intro r r' h
  exact Option.some.inj (by rw [← trailerValue_u16be r, h, trailerValue_u16be])

theorem answered_injective (s : State) : Function.Injective (answered s) := by
  intro r q h
  exact (answered_out_eq_iff s r q).mp (congrArg State.out h)

/-- An accepted string ends with the CRC-16 of the bytes before it (R141). -/
theorem exists_of_crc16Vfy_accepts {f : Bytes} {s : State}
    (h : exec (.crc16Vfy f) s = .next (answered s (okResponse [0x01]))) : ∃ a, f = a ++ u16be (Machine.crc16 a) := by
  have hresponse := answered_injective s (Host.Outcome.next.inj ((verify_eq id f s).symm.trans h))
  split at hresponse
  · exact absurd hresponse (by decide)
  · cases hmatch : trailerMatches id f with
    | true =>
      have htrailer := (trailerMatches_iff id f).mp hmatch
      exact ⟨f.take (f.length - 2), by rw [← id_eq (Machine.crc16 _), ← htrailer, List.take_append_drop]⟩
    | false =>
      rw [hmatch] at hresponse
      exact absurd hresponse (by decide)

/-- Changing one bit changes the byte. -/
theorem xor_bit_ne (c : Byte) {k : Nat} (hk : k < 8) : c ^^^ (1#8 <<< k) ≠ c := by
  have hbit : ∀ k < 8, (1#8 <<< k) ≠ 0#8 := by decide
  intro h
  exact hbit k hk ((BitVec.xor_right_inj c).mp (h.trans BitVec.xor_zero.symm))

/-- Putting another byte in its place changes a string. -/
theorem set_ne_self {t : Bytes} {i : Nat} {b c : Byte} (hc : t[i]? = some c) (hb : b ≠ c) : t.set i b ≠ t := by
  obtain ⟨hi, -⟩ := List.getElem?_eq_some_iff.mp hc
  intro h
  rw [← h, List.getElem?_set_self hi] at hc
  exact hb (Option.some.inj hc)

/-- Settles O36: a changed byte before the trailer changes the CRC-16 of what the trailer covers and not the trailer,
and a changed byte of the trailer changes the trailer alone. -/
theorem singleBitErrorsAreDetected : Obligations.SingleBitErrorsAreDetected := by
  intro f i c k s hc hk hacc
  obtain ⟨a, rfl⟩ := exists_of_crc16Vfy_accepts hacc
  have hne := xor_bit_ne c hk
  by_cases hi : i < a.length
  · rw [List.getElem?_append_left hi, List.getElem?_eq_getElem hi] at hc
    cases hc
    rw [List.set_append_left _ _ hi]
    refine (verify_append id s rfl).trans ?_
    rw [id, if_neg (u16be_injective.ne (crc16_set_ne hi hne).symm)]
  · rw [List.getElem?_append_right (Nat.le_of_not_lt hi)] at hc
    rw [List.set_append_right _ _ (Nat.le_of_not_lt hi)]
    refine (verify_append id s List.length_set).trans ?_
    rw [id, if_neg (set_ne_self hc hne)]

end Sys2Proof.Proofs

/-! The hex codec's two directions (R104, R105): when HEX.DEC fails, and the decoding of an encoded string. -/

namespace Sys2Proof.Proofs

open Sys2Proof.Machine Sys2Proof.Spec

/-- Settles O41: both responses are made from the one validity predicate of the lexed text. -/
theorem hexDecodeFailsExactlyWhenInvalid : Obligations.HexDecodeFailsExactlyWhenInvalid := by
  intro a s
  rw [exec_hexDec, exec_hexIshex, isHexResult]
  cases lexValid (lex a) with
  | true =>
    refine iff_of_false (fun h => ?_) ?_
    · exact absurd (answered_injective s (Host.Outcome.next.inj h)) (by simp [okResponse])
    · rintro ⟨count, h⟩
      exact absurd (answered_injective s (Host.Outcome.next.inj h)) (by simp [okResponse, validityByte])
  | false => exact iff_of_true rfl ⟨_, rfl⟩

/-! Lexing the text of HEX.ENC. -/

/-- The two digits of a byte, high nibble first (R43). -/
def nibblePair (b : Byte) : List Nibble := [b.extractLsb' 4 4, b.extractLsb' 0 4]

/-- A byte is put together again from its digits (R104). -/
theorem nibbles_of_byte (b : Byte) :
    ((b.extractLsb' 4 4).setWidth 8 <<< 4) ||| (b.extractLsb' 0 4).setWidth 8 = b := by
  revert b
  decide

/-- The bytes of a string are read back from its digits. -/
theorem pairDigits_flatMap_nibblePair (a : Bytes) : pairDigits (a.flatMap nibblePair) = a := by
  induction a with
  | nil => rfl
  | cons b a ih =>
    rw [List.flatMap_cons]
    exact congrArg₂ List.cons (nibbles_of_byte b) ih

theorem flatMap_nibblePair_length (a : Bytes) : (a.flatMap nibblePair).length = 2 * a.length := by
  induction a with
  | nil => rfl
  | cons b a ih =>
    rw [List.flatMap_cons, List.length_append, ih, List.length_cons, nibblePair, List.length_cons, List.length_cons,
      List.length_nil]
    omega

theorem lexBody_hexPair (b : Byte) : lexBody (hexPair b) = (nibblePair b, false) := by
  simp [hexPair, lexBody, nibblePair]

/-- Whitespace in a body is passed over (R102). -/
theorem lexBody_whitespace {sep : Bytes} (h : ∀ c ∈ sep, c ∈ whitespace) : lexBody sep = ([], false) := by
  induction sep with
  | nil => rfl
  | cons c sep ih =>
    obtain ⟨hc, hsep⟩ := List.forall_mem_cons.mp h
    have hws := (isWS_iff c).mpr hc
    simp [lexBody, hexVal?_of_isWS hws, hws, ih hsep]

/-- With a separator of whitespace, the lexer reads HEX.ENC's text as the string's digits, and meets no bad byte. -/
theorem lexBody_hexText {sep : Bytes} (h : ∀ c ∈ sep, c ∈ whitespace) (a : Bytes) :
    lexBody (hexText sep a) = (a.flatMap nibblePair, false) := by
  induction a with
  | nil => rfl
  | cons b a ih =>
    rw [hexText_cons, lexBody_append, lexBody_hexPair, List.flatMap_cons]
    split <;> rename_i ha
    · simp [ha, lexBody]
    · simp [lexBody_append, lexBody_whitespace h, ih]

/-- A digit made by HEX.ENC is no whitespace and no letter of a mark (R101, R102). -/
theorem hexDigit_ne (n : Nibble) : isWS (hexDigit n) = false ∧ hexDigit n ≠ 0x78 ∧ hexDigit n ≠ 0x58 := by
  revert n
  decide

/-- HEX.ENC's text opens with two digits, so nothing is taken off before its body. -/
theorem lexedBody_hexText (sep a : Bytes) : lexedBody (hexText sep a) = hexText sep a := by
  cases a with
  | nil => rfl
  | cons b a =>
    obtain ⟨hws, -, -⟩ := hexDigit_ne (b.extractLsb' 4 4)
    obtain ⟨-, hx, hX⟩ := hexDigit_ne (b.extractLsb' 0 4)
    rw [hexText_cons, lexedBody, hexPair, List.cons_append, List.dropWhile_cons_of_neg (by simp [hws])]
    refine stripHexMark_of_not_marked ?_
    rintro ⟨t, x, he, hmark⟩
    obtain rfl : hexDigit (b.extractLsb' 0 4) = x := (List.cons.inj (List.cons.inj he).2).1
    exact hmark.elim hx hX

/-- HEX.DEC of HEX.ENC's text of a non-empty string, with a separator of whitespace (R105). -/
theorem exec_hexDec_hexText {a sep : Bytes} (ha : a ≠ []) (hsep : ∀ c ∈ sep, c ∈ whitespace) (s : State) :
    exec (.hexDec (hexText sep a)) s = .next (answered s (okResponse (countedBytes a))) := by
  have hlex : lex (hexText sep a) = (a.flatMap nibblePair, false) := by
    rw [lex_eq, lexedBody_hexText, lexBody_hexText hsep]
  have hvalid : lexValid (a.flatMap nibblePair, false) = true := by
    have := List.length_pos_iff.mpr ha
    simp only [lexValid, flatMap_nibblePair_length, Bool.not_false, Bool.true_and, Bool.and_eq_true, decide_eq_true_iff]
    omega
  rw [exec_hexDec, hlex, if_pos hvalid, pairDigits_flatMap_nibblePair]

/-- Settles O42: the text has the string's digits, two for each byte, so it is valid and its bytes are the string. -/
theorem hexRoundTrip : Obligations.HexRoundTrip := by
  intro a b s ha hsep hfits
  refine ⟨hexText b a, ?_, exec_hexDec_hexText ha hsep s⟩
  rw [exec_hexEnc, if_pos hfits, countedBytes]

/-- Settles O43: the text of the empty string is empty, and the empty text has no digit. -/
theorem emptyHexRoundTripFails : Obligations.EmptyHexRoundTripFails := by
  intro b s
  have htext : countedBytes (hexText b []) = [0x00, 0x00, 0x00, 0x00] := by rw [hexText]; rfl
  have hempty : hexTextLength [] b ≤ 4294967295 := Nat.zero_le _
  refine ⟨?_, exec_hexDec [] s⟩
  rw [exec_hexEnc, if_pos hempty, htext]

end Sys2Proof.Proofs

/-! The stream of chunks (R173 to R179, R204, R205): responses that delimit their frames, what a chunk leaves, chunks
taken apart and put together, and whole frames amid garbage. -/

namespace Sys2Proof.Proofs

open Sys2Proof.Machine Sys2Proof.Spec

/-! Responses that delimit their frames. -/

/-- A frame at the head of a string is the only one there: its length byte says where it ends (R173). -/
theorem isFrame_append_inj {f g x y : Bytes} (hf : IsFrame f) (hg : IsFrame g) (h : f ++ x = g ++ y) :
    f = g ∧ x = y := by
  refine List.append_inj h (Option.some.inj ?_)
  rw [← completeFrame?_of_isFrame hf x, h, completeFrame?_of_isFrame hg y]

/-- A list of frames can be read off a string that each frame adds to in a way that delimits it. -/
theorem flatten_map_inj {φ : Bytes → Bytes}
    (hφ : ∀ f g x y, IsFrame f → IsFrame g → φ f ++ x = φ g ++ y → f = g ∧ x = y) (hne : ∀ f, IsFrame f → φ f ≠ [])
    {fs gs : List Bytes} (hfs : ∀ f ∈ fs, IsFrame f) (hgs : ∀ g ∈ gs, IsFrame g)
    (h : (fs.map φ).flatten = (gs.map φ).flatten) : fs = gs := by
  induction fs generalizing gs with
  | nil =>
    cases gs with
    | nil => rfl
    | cons g gs =>
      obtain ⟨hg, -⟩ := List.forall_mem_cons.mp hgs
      exact absurd (List.append_eq_nil_iff.mp h.symm).1 (hne g hg)
  | cons f fs ih =>
    obtain ⟨hf, hfs⟩ := List.forall_mem_cons.mp hfs
    cases gs with
    | nil => exact absurd (List.append_eq_nil_iff.mp h).1 (hne f hf)
    | cons g gs =>
      obtain ⟨hg, hgs'⟩ := List.forall_mem_cons.mp hgs
      obtain ⟨rfl, hrest⟩ := hφ f g _ _ hf hg h
      rw [ih hfs hgs' hrest]

/-- The responses of FX.EXT and PE.PROC are the machine's own results (R66, R200). -/
theorem streamResponse_eq (engine : Bool) (fs : List Bytes) : streamResponse engine fs =
    okResponse (if engine then recordsResult (fs.map engineRecord) else framesResult fs) := by
  cases engine with
  | false => rfl
  | true => exact congrArg okResponse (recordsResult_engineRecord fs).symm

/-- A response of FX.EXT or PE.PROC has one list of frames: after the count, each frame delimits itself. -/
theorem streamResponse_inj (engine : Bool) {fs gs : List Bytes} (hfs : ∀ f ∈ fs, IsFrame f)
    (hgs : ∀ g ∈ gs, IsFrame g) (h : streamResponse engine fs = streamResponse engine gs) : fs = gs := by
  cases engine with
  | false =>
    have hframes : fs.flatten = gs.flatten := (List.append_inj (List.cons.inj h).2 rfl).2
    rw [← List.map_id fs, ← List.map_id gs] at hframes
    refine flatten_map_inj (fun f g x y hf hg => isFrame_append_inj hf hg) (fun f hf => ?_) hfs hgs hframes
    exact List.length_pos_iff.mp (Nat.lt_of_lt_of_le (by decide) (isFrame_length hf).1)
  | true =>
    have hrecords := (List.append_inj (List.cons.inj h).2 rfl).2
    exact flatten_map_inj (fun f g x y hf hg he => isFrame_append_inj hf hg (List.cons.inj he).2)
      (fun f _ => List.cons_ne_nil _ _) hfs hgs hrecords

/-- Settles O47: the response is that of the loop's frames, and a response has one list of frames. -/
theorem responsesSplitOneWay : Obligations.ResponsesSplitOneWay := by
  intro engine a s hfits
  have hd := drains_drain (s.bl ++ a)
  have hframes := isFrame_of_drains hd
  refine ⟨_, _, _, exec_streamOp_of_drains engine hfits hd, hd, hframes, streamResponse_eq engine _, fun gs hgs h => ?_⟩
  exact streamResponse_inj engine hgs hframes ((streamResponse_eq engine gs).trans h.symm)

/-! What a chunk leaves. -/

/-- Settles O48: the loop leaves R22's condition. -/
theorem streamingLeavesAnIncompleteFrame : Obligations.StreamingLeavesAnIncompleteFrame := by
  intro engine a s hfits
  have hd := drains_drain (s.bl ++ a)
  have hinv := backlogInv_of_drains hd
  exact ⟨_, _, exec_streamOp_of_drains engine hfits hd, hinv, length_le_of_backlogInv hinv⟩

/-- Every bound a legal build can have leaves room for one maximal frame (R264). -/
theorem fits_of_legal {s : State} {n : Nat} (hlegal : s.cfg.legal = true) (hn : s.bl.length + n ≤ 259) : Fits s n := by
  intro m hm
  rw [Config.legal, hm] at hlegal
  exact hn.trans (of_decide_eq_true hlegal)

/-- A response that comes with the backlog unchanged. -/
theorem answered_of_bl {s : State} {bl : Bytes} (h : s.bl = bl) (r : Bytes) :
    { s with bl := bl, out := s.out ++ [r] } = answered s r := by
  subst h
  rfl

/-- Settles O49: R22's condition leaves the loop nothing to do, and its backlog fits every legal bound. -/
theorem emptyChunkYieldsNothing : Obligations.EmptyChunkYieldsNothing := by
  intro engine s hinv
  have hfits : Fits s ([] : Bytes).length :=
    fits_of_legal hinv.build (Nat.le_succ_of_le (length_le_of_backlogInv hinv.backlog))
  have hd : Drains (s.bl ++ []) [] s.bl := by
    rw [List.append_nil]
    exact drains_of_backlogInv hinv.backlog
  rw [exec_streamOp_of_drains engine hfits hd, answered_of_bl rfl]
  cases engine <;> rfl

/-! Chunks taken apart and put together. -/

section Loop

variable {bl b d f rest last last' : Bytes} {fs gs : List Bytes}

/-- Bytes without a sentinel in front of a backlog are dropped (R171, R178). -/
theorem drains_append_garbage (hd : sentinel ∉ d) (h : Drains bl fs last) : Drains (d ++ bl) fs last := by
  have hresynced {r : Bytes} (h : Resynced bl r) : Resynced (d ++ bl) r := by
    obtain ⟨e, rfl, he, hr⟩ := h
    exact ⟨d ++ e, (List.append_assoc d e r).symm, by simp [hd, he], hr⟩
  cases h with
  | stop h hincomplete => exact .stop (hresynced h) hincomplete
  | take h hframe hrest => exact .take (hresynced h) hframe hrest

/-- A frame in front of a backlog is taken (R172). -/
theorem drains_append_frame (hf : IsFrame f) (h : Drains rest fs last) : Drains (f ++ rest) (f :: fs) last := by
  refine .take ⟨[], rfl, List.not_mem_nil, .inr ?_⟩ hf h
  obtain ⟨l, r, rfl, -⟩ := hf
  rfl

/-- The loop over a backlog with more bytes after it: the frames it takes from the backlog, then those it takes from
what it leaves with the bytes after that (R177). -/
theorem drains_append (h : Drains bl fs last) (h' : Drains (last ++ b) gs last') :
    Drains (bl ++ b) (fs ++ gs) last' := by
  induction h with
  | stop hresynced _ =>
    obtain ⟨d, rfl, hd, -⟩ := hresynced
    rw [List.append_assoc]
    exact drains_append_garbage hd h'
  | take hresynced hframe _ ih =>
    obtain ⟨d, rfl, hd, -⟩ := hresynced
    rw [List.append_assoc, List.append_assoc]
    exact drains_append_garbage hd (drains_append_frame hframe (ih h'))

/-- Whole frames, with garbage before, between and after them, are what the loop takes, and it leaves nothing (R175,
R178, R179). -/
theorem drains_parts {parts : List (Bytes × Bytes)} {tail : Bytes} (hparts : ∀ p ∈ parts, sentinel ∉ p.1 ∧ IsFrame p.2)
    (htail : sentinel ∉ tail) :
    Drains ((parts.map (fun p => p.1 ++ p.2)).flatten ++ tail) (parts.map Prod.snd) [] := by
  induction parts with
  | nil => exact .stop ⟨tail, (List.append_nil tail).symm, htail, .inl rfl⟩ (.inl (by decide))
  | cons p parts ih =>
    obtain ⟨⟨hgarbage, hframe⟩, hparts⟩ := List.forall_mem_cons.mp hparts
    rw [List.map_cons, List.flatten_cons, List.append_assoc, List.append_assoc]
    exact drains_append_garbage hgarbage (drains_append_frame hframe (ih hparts))

end Loop

/-- Chunks issued one by one yield the frames of the loop over all of them at once. With no chunk there is no loop, so
the backlog has to be one that the loop leaves. -/
theorem execAll_streamOp (chunks : List (Bool × Bytes)) (s : State) (hnil : chunks = [] → BacklogInv s.bl)
    (hfits : Fits s (chunks.map Prod.snd).flatten.length) :
    ∃ (fss : List (List Bytes)) (last : Bytes), fss.length = chunks.length ∧
      Drains (s.bl ++ (chunks.map Prod.snd).flatten) fss.flatten last ∧
      execAll (chunks.map streamOp) s = .next { s with
        bl := last, out := s.out ++ List.zipWith (fun c fs => streamResponse c.1 fs) chunks fss } := by
  induction chunks generalizing s with
  | nil =>
    refine ⟨[], s.bl, rfl, ?_, ?_⟩
    · rw [List.map_nil, List.flatten_nil, List.append_nil]
      exact drains_of_backlogInv (hnil rfl)
    · rw [List.zipWith_nil_left, List.append_nil]
      rfl
  | cons c chunks ih =>
    rw [List.map_cons, List.flatten_cons] at hfits ⊢
    obtain ⟨fs, mid, hd⟩ : ∃ fs mid, Drains (s.bl ++ c.2) fs mid := ⟨_, _, drains_drain _⟩
    have hle := drains_length_le hd
    rw [List.length_append] at hle hfits
    have hexec := exec_streamOp_of_drains c.1 (fun m hm => by have := hfits m hm; omega) hd
    have hfits' : ∀ m, s.cfg.backlogMax = some m → mid.length + (chunks.map Prod.snd).flatten.length ≤ m :=
      fun m hm => by have := hfits m hm; omega
    obtain ⟨fss, last, hlen, hrest, hall⟩ := ih { s with bl := mid, out := s.out ++ [streamResponse c.1 fs] }
      (fun _ => backlogInv_of_drains hd) hfits'
    refine ⟨fs :: fss, last, congrArg Nat.succ hlen, ?_, ?_⟩
    · rw [← List.append_assoc]
      exact drains_append hd hrest
    · rw [List.map_cons, execAll_cons hexec, hall, List.append_assoc]
      rfl

/-- Settles O50: one by one or all at once, the chunks have the frames and the final backlog of one loop. -/
theorem fragmentationInvariance : Obligations.FragmentationInvariance := by
  intro chunks engine s hne hfits
  obtain ⟨fss, last, hlen, hd, hall⟩ := execAll_streamOp chunks s (fun h => absurd h hne) hfits
  exact ⟨fss, last, hlen, isFrame_of_drains hd, hall, exec_streamOp_of_drains engine hfits hd⟩

/-- Settles O51: the loop takes exactly the frames. -/
theorem allWholeFramesComeOut : Obligations.AllWholeFramesComeOut := by
  intro engine parts tail s hbl hparts htail hfits
  have hd : Drains (s.bl ++ ((parts.map fun p => p.1 ++ p.2).flatten ++ tail)) (parts.map Prod.snd) [] := by
    rw [hbl, List.nil_append]
    exact drains_parts hparts htail
  rw [exec_streamOp_of_drains engine hfits hd, answered_of_bl hbl]

/-! Frames a host builds. -/

/-- A payload of at most 255 bytes, in its frame with a trailer of two bytes (R67, R173). -/
theorem isFrame_of_payload {payload t : Bytes} (hlen : payload.length ≤ 255) (ht : t.length = 2) :
    IsFrame (0x7F :: byte payload.length :: (payload ++ t)) := by
  refine ⟨byte payload.length, payload ++ t, rfl, ?_⟩
  rw [byte, BitVec.toNat_ofNat, List.length_append, ht, Nat.mod_eq_of_lt (Nat.lt_succ_of_le hlen)]

/-- Settles O52: the bytes are one frame, whose trailer is the CRC-16 of what stands before it. -/
theorem hostBuiltFramesAreValid : Obligations.HostBuiltFramesAreValid := by
  intro payload s hlen hbl hlegal
  refine ⟨_, finish_eq _ s, ?_⟩
  generalize ht : u16be (Machine.crc16 (0x7F :: byte payload.length :: payload)) = t
  have hframe := isFrame_of_payload hlen (t := t) (ht ▸ rfl)
  have hvalid : trailerValid (0x7F :: byte payload.length :: (payload ++ t)) = true := by
    rw [← trailerMatches_id]
    exact (trailerMatches_append_iff id (h := 0x7F :: byte payload.length :: payload) (ht ▸ rfl)).mpr ht.symm
  generalize 0x7F :: byte payload.length :: (payload ++ t) = f at *
  have hfits : Fits s f.length := fits_of_legal hlegal (by rw [hbl]; simpa using (isFrame_length hframe).2)
  have hd : Drains (s.bl ++ f) [f] [] := by
    rw [hbl]
    simpa using drains_append_frame hframe (drains_of_backlogInv (.inl rfl))
  refine (exec_streamOp_of_drains true hfits hd).trans ?_
  rw [answered_of_bl hbl]
  simp [streamResponse, hvalid, u32be]

end Sys2Proof.Proofs
